-- ==== Sys2Proof/Word.lean ====
section
/-! DEFINITION. The machine's word types (00_scope.md R6, R7, R9): every value of the CORE is unsigned and has a fixed width. -/

namespace Sys2Proof

/-- A "word" of the spec: 8 bits (R9). -/
abbrev Byte := BitVec 8

/-- A "double-word" of the spec: 16 bits (R9). -/
abbrev Dword := BitVec 16

/-- An address of the memory space: 16 bits, 65536 of them (R6). -/
abbrev Addr := BitVec 16

/-- A command word `cmd[31:0]` (30_encoding.md R80). -/
abbrev CmdWord := BitVec 32

/-- A response word `rsp[31:0]` (30_encoding.md R90). -/
abbrev RspWord := BitVec 32

/-- `zext_16` of a byte (R7), the only extension the CORE ever makes (40_register_file.md R120). -/
def zext16 (b : Byte) : Dword := b.setWidth 16

end Sys2Proof
end

