-- ==== Sys2Proof/Syntax.lean ====
section
/-! DEFINITION. The commands of the CORE as data, one constructor for each row of spec/opcode_table.json, and the assembler's
lines (30_encoding.md R93) as data. -/

namespace Sys2Proof

/-- The closed enumeration of register names, in the document's order (10_state.md R21). -/
inductive Reg where
  | a | b | c | d | e | f | h | l | af | bc | de | hl | sp | pc
deriving DecidableEq, Repr

/-- The nine commands (30_encoding.md R83), with their operands as 30_encoding.md R85 takes them from the word. -/
inductive Instr where
  /-- READ_WORD `reg` (40_register_file.md R111). -/
  | readWord (reg : Reg)
  /-- WRITE_WORD `reg, byte` (R112). -/
  | writeWord (reg : Reg) (byte : Byte)
  /-- READ_DWORD `reg` (R113). -/
  | readDword (reg : Reg)
  /-- WRITE_DWORD `reg, word16` (R114). -/
  | writeDword (reg : Reg) (word16 : Dword)
  /-- COPY_REGISTER `dst, src` (R115). -/
  | copyRegister (dst src : Reg)
  /-- GET_FLAGS (R116). -/
  | getFlags
  /-- SET_FLAGS `flagbyte` (R117); a byte with a non-zero low nibble is a legal word that fails at execution (R86). -/
  | setFlags (flagbyte : Byte)
  /-- READ_BYTE `address` (41_memory_map.md R151). -/
  | readByte (address : Addr)
  /-- WRITE_BYTE `address, byte` (R152). -/
  | writeByte (address : Addr) (byte : Byte)
deriving DecidableEq, Repr

/-- The four status flags by name (10_state.md R30), as a flag list of the assembler names them. -/
inductive Flag where
  | z | n | h | c
deriving DecidableEq, Repr

/-- The operand of SET_FLAGS in assembler text: a flag list in braces, or a literal (30_encoding.md R93). -/
inductive FlagOperand where
  | list (flags : List Flag)
  | imm (n : Nat)
deriving DecidableEq, Repr

/-- One line of assembler text, parsed: literals are numbers of any size, which the assembler refuses where they do not fit
their field (30_encoding.md R93). -/
inductive AsmLine where
  | readWord (r : Reg)
  | writeWord (r : Reg) (imm8 : Nat)
  | readDword (r : Reg)
  | writeDword (r : Reg) (imm16 : Nat)
  | copyRegister (dst src : Reg)
  | getFlags
  | setFlags (operand : FlagOperand)
  | readByte (addr16 : Nat)
  | writeByte (addr16 imm8 : Nat)
deriving DecidableEq, Repr

end Sys2Proof
end

