-- ==== Sys2Proof/Decode.lean ====
section
/-! DEFINITION. From a 32-bit command word to a command or a rejection by name (30_encoding.md R80 to R89), and back. The
decoder reads fields; the encoder puts the same fields of R81 and R82 together. -/

namespace Sys2Proof

/-! ### Register codes -/

/-- The 4-bit code of a register name (30_encoding.md R84). -/
def Reg.code : Reg → BitVec 4
  | .a => 0x0#4
  | .b => 0x1#4
  | .c => 0x2#4
  | .d => 0x3#4
  | .e => 0x4#4
  | .f => 0x5#4
  | .h => 0x6#4
  | .l => 0x7#4
  | .af => 0x8#4
  | .bc => 0x9#4
  | .de => 0xA#4
  | .hl => 0xB#4
  | .sp => 0xC#4
  | .pc => 0xD#4

/-- `regname`: the register a 4-bit code names; 0xE and 0xF name none (R84). -/
def Reg.ofCode (code : BitVec 4) : Option Reg :=
  match code.toNat with
  | 0x0 => some .a
  | 0x1 => some .b
  | 0x2 => some .c
  | 0x3 => some .d
  | 0x4 => some .e
  | 0x5 => some .f
  | 0x6 => some .h
  | 0x7 => some .l
  | 0x8 => some .af
  | 0x9 => some .bc
  | 0xA => some .de
  | 0xB => some .hl
  | 0xC => some .sp
  | 0xD => some .pc
  | _ => none

/-! ### The fields of the two formats -/

/-- `cmd[31:28]`, OP, in both formats (R81, R82). -/
def opField (w : CmdWord) : BitVec 4 := w.extractLsb' 28 4

/-- `cmd[27:24]`, RA, of format R (R81). -/
def raField (w : CmdWord) : BitVec 4 := w.extractLsb' 24 4

/-- `cmd[23:20]`, RB, of format R. -/
def rbField (w : CmdWord) : BitVec 4 := w.extractLsb' 20 4

/-- `cmd[19:16]`, Z4, of format R. -/
def z4Field (w : CmdWord) : BitVec 4 := w.extractLsb' 16 4

/-- `cmd[15:8]`, DH, of format R. -/
def dhField (w : CmdWord) : Byte := w.extractLsb' 8 8

/-- `cmd[7:0]`, DL, of format R. -/
def dlField (w : CmdWord) : Byte := w.extractLsb' 0 8

/-- `IMM16 = DH : DL = cmd[15:0]` of format R. -/
def imm16Field (w : CmdWord) : Dword := w.extractLsb' 0 16

/-- `cmd[27:24]`, Z4, of format M (R82). -/
def z4MField (w : CmdWord) : BitVec 4 := w.extractLsb' 24 4

/-- `cmd[23:8]`, ADDR, of format M. -/
def addrField (w : CmdWord) : Addr := w.extractLsb' 8 16

/-- `cmd[7:0]`, DATA, of format M. -/
def dataField (w : CmdWord) : Byte := w.extractLsb' 0 8

/-! ### Decoding -/

/-- Why a word spells no command: the three cases of 30_encoding.md R87. Each one answers IllegalCommand, so the machine does
not tell them apart. -/
inductive Illegal where
  /-- OP is 0x0 or one of 0xA to 0xF. -/
  | unassignedOpcode
  /-- A must-be-zero bit of R86 is 1. -/
  | mustBeZero
  /-- A register field the command uses holds 0xE or 0xF. -/
  | registerCode
deriving DecidableEq, Repr

/-- Rejects a word whose must-be-zero fields are not all zero. -/
def requireZero (zero : Bool) (d : Except Illegal Instr) : Except Illegal Instr :=
  match zero with
  | true => d
  | false => .error .mustBeZero

/-- Reads a register field the command uses. -/
def withReg (code : BitVec 4) (k : Reg → Except Illegal Instr) : Except Illegal Instr :=
  match Reg.ofCode code with
  | some r => k r
  | none => .error .registerCode

/-- The total decoder (30_encoding.md R83 to R89); it depends on nothing but the word. DESIGN CHOICE, safe (log 13): where a
word is illegal for several reasons the name given is the must-be-zero bit's before the register code's. -/
def decode (w : CmdWord) : Except Illegal Instr :=
  match (opField w).toNat with
  | 0x1 => requireZero (rbField w == 0 && z4Field w == 0 && dhField w == 0 && dlField w == 0)
      (withReg (raField w) fun r => .ok (.readWord r))
  | 0x2 => requireZero (rbField w == 0 && z4Field w == 0 && dhField w == 0)
      (withReg (raField w) fun r => .ok (.writeWord r (dlField w)))
  | 0x3 => requireZero (rbField w == 0 && z4Field w == 0 && dhField w == 0 && dlField w == 0)
      (withReg (raField w) fun r => .ok (.readDword r))
  | 0x4 => requireZero (rbField w == 0 && z4Field w == 0)
      (withReg (raField w) fun r => .ok (.writeDword r (imm16Field w)))
  | 0x5 => requireZero (z4Field w == 0 && dhField w == 0 && dlField w == 0)
      (withReg (raField w) fun dst => withReg (rbField w) fun src => .ok (.copyRegister dst src))
  | 0x6 => requireZero (raField w == 0 && rbField w == 0 && z4Field w == 0 && dhField w == 0 && dlField w == 0)
      (.ok .getFlags)
  | 0x7 => requireZero (raField w == 0 && rbField w == 0 && z4Field w == 0 && dhField w == 0)
      (.ok (.setFlags (dlField w)))
  | 0x8 => requireZero (z4MField w == 0 && dataField w == 0) (.ok (.readByte (addrField w)))
  | 0x9 => requireZero (z4MField w == 0) (.ok (.writeByte (addrField w) (dataField w)))
  | _ => .error .unassignedOpcode

/-! ### Encoding -/

/-- A word of format R (30_encoding.md R81): OP, RA, RB, Z4 = 0, DH, DL. -/
def formatR (op ra rb : BitVec 4) (dh dl : Byte) : CmdWord :=
  op ++ ra ++ rb ++ 0#4 ++ dh ++ dl

/-- A word of format M (30_encoding.md R82): OP, Z4 = 0, ADDR, DATA. -/
def formatM (op : BitVec 4) (addr : Addr) (data : Byte) : CmdWord :=
  op ++ 0#4 ++ addr ++ data

/-- The word of a command (30_encoding.md R83 to R86). -/
def encode : Instr → CmdWord
  | .readWord r => formatR 0x1#4 r.code 0 0 0
  | .writeWord r byte => formatR 0x2#4 r.code 0 0 byte
  | .readDword r => formatR 0x3#4 r.code 0 0 0
  | .writeDword r v => formatR 0x4#4 r.code 0 (v.extractLsb' 8 8) (v.extractLsb' 0 8)
  | .copyRegister dst src => formatR 0x5#4 dst.code src.code 0 0
  | .getFlags => formatR 0x6#4 0 0 0 0
  | .setFlags flagbyte => formatR 0x7#4 0 0 0 flagbyte
  | .readByte address => formatM 0x8#4 address 0
  | .writeByte address byte => formatM 0x9#4 address byte

/-! ### The opcode table's masks -/

/-- One row of R86's table: a word belongs to the row when `(cmd & mask) = match`. -/
structure EncodingRow where
  mask : CmdWord
  value : CmdWord
deriving DecidableEq, Repr

/-- The word's fixed bits are the row's. -/
def EncodingRow.covers (row : EncodingRow) (w : CmdWord) : Bool := (w &&& row.mask) == row.value

/-- R86's mask and match of the row a command belongs to. -/
def Instr.row : Instr → EncodingRow
  | .readWord _ => ⟨0xF0FFFFFF#32, 0x10000000#32⟩
  | .writeWord _ _ => ⟨0xF0FFFF00#32, 0x20000000#32⟩
  | .readDword _ => ⟨0xF0FFFFFF#32, 0x30000000#32⟩
  | .writeDword _ _ => ⟨0xF0FF0000#32, 0x40000000#32⟩
  | .copyRegister _ _ => ⟨0xF00FFFFF#32, 0x50000000#32⟩
  | .getFlags => ⟨0xFFFFFFFF#32, 0x60000000#32⟩
  | .setFlags _ => ⟨0xFFFFFF00#32, 0x70000000#32⟩
  | .readByte _ => ⟨0xFF0000FF#32, 0x80000000#32⟩
  | .writeByte _ _ => ⟨0xFF000000#32, 0x90000000#32⟩

/-! ### The host's numbering -/

/-- The instruction the decoder reads from an instruction of `nbits` bits that spell `w`, every bit above them 0. A command
is one 32-bit word (R80) that reaches the port whole, so the table's numbering is the word's own. DESIGN CHOICE, safe
(log 14): a longer number is no command word. -/
def decodeTableWord (nbits w : Nat) : Option Instr :=
  let v := w % 2 ^ nbits
  match decide (v < 2 ^ 32) with
  | true => (decode (BitVec.ofNat 32 v)).toOption
  | false => none

end Sys2Proof
end

