-- ==== Sys2Proof/Config.lean ====
section
/-! DEFINITION. What is fixed for one instance of the CORE: the parameters of 00_scope.md R6. Whether a configuration is legal
(70_reset_and_hazards.md R201) is decided in Machine/Reset.lean. -/

namespace Sys2Proof

/-- `TARGET_ENDIAN` (00_scope.md R6): exactly two values, so every value of this type is legal (R201). -/
inductive Endian where
  | little
  | big
deriving DecidableEq, Repr

/-- The seven segment buffers of the memory map (10_state.md R36), in the document's order. -/
inductive Segment where
  | rom | vram | extram | wram | oam | io | hram
deriving DecidableEq, Repr

/-- The parameters of an instance (00_scope.md R6). `none` says that no contents are given, so that the default of
10_state.md R42 or R43 holds: every byte 0x00. -/
structure Config where
  /-- `TARGET_ENDIAN`. -/
  targetEndian : Endian
  /-- `INIT_REGS`, to be exactly 12 bytes (R201). -/
  initRegs : Option (List Byte)
  /-- `INIT_ROM`. -/
  initRom : Option (List Byte)
  /-- `INIT_VRAM`. -/
  initVram : Option (List Byte)
  /-- `INIT_EXTRAM`. -/
  initExtram : Option (List Byte)
  /-- `INIT_WRAM`. -/
  initWram : Option (List Byte)
  /-- `INIT_OAM`. -/
  initOam : Option (List Byte)
  /-- `INIT_IO`. -/
  initIo : Option (List Byte)
  /-- `INIT_HRAM`. -/
  initHram : Option (List Byte)
  /-- `INIT_IE`, one byte. -/
  initIe : Byte
deriving DecidableEq, Repr

/-- The default instance: LITTLE, and no contents given (R6, 92_eei_decisions.md D1 and D11). -/
def Config.default : Config where
  targetEndian := .little
  initRegs := none
  initRom := none
  initVram := none
  initExtram := none
  initWram := none
  initOam := none
  initIo := none
  initHram := none
  initIe := 0x00#8

/-- The image `INIT_<segment>` given for a segment. -/
def Config.image (c : Config) : Segment → Option (List Byte)
  | .rom => c.initRom
  | .vram => c.initVram
  | .extram => c.initExtram
  | .wram => c.initWram
  | .oam => c.initOam
  | .io => c.initIo
  | .hram => c.initHram

end Sys2Proof
end

