-- ==== Sys2Proof/Machine/State.lean ====
section
/-! DEFINITION. The state of the CORE as plain data (10_state.md), what a step may stop with, and the state after reset. -/

namespace Sys2Proof.Machine

/-- The contents of one segment buffer: offset and byte pairs, offsets strictly rising, no byte equal to what an unlisted offset
reads as (`Memory.wf`, Machine/Ops.lean). The key is the offset into the buffer, as 10_state.md R36 counts it (log 8). -/
abbrev Memory := List Host.Cell

/-- The sub-block register_file: the 12-byte store `x[0]` to `x[11]` (10_state.md R20). -/
structure RegisterFile where
  x : Vector Byte 12
deriving DecidableEq, Repr

/-- The sub-block segment_buffer_array: seven buffers and the interrupt-enable byte (10_state.md R35, R36). -/
structure MemoryMap where
  rom : Memory
  vram : Memory
  extram : Memory
  wram : Memory
  oam : Memory
  io : Memory
  hram : Memory
  ie : Byte
deriving DecidableEq, Repr

/-- The four errors of 60_exceptions.md R170. Each is an answer of the CORE, after which it goes on (R177): none of them stops
the machine. -/
inductive CommandError where
  | sizeMismatch
  | invalidFlagState
  | unmappedAddress
  | illegalCommand
deriving DecidableEq, Repr

/-- Which components a reset reaches: they may be reset together or apart (70_reset_and_hazards.md R200). -/
inductive ResetScope where
  | registerFile
  | memoryMap
  | both
deriving DecidableEq, Repr

/-- What the outside world presents in one step: a command word at the command port (00_scope.md R5), or a reset
(70_reset_and_hazards.md R203). -/
inductive PortInput where
  | command (w : CmdWord)
  | reset (scope : ResetScope)
deriving DecidableEq, Repr

/-- The CORE with its configuration and its command port. `rf` and `mm` are the whole state the spec gives the machine
(10_state.md R40); the other fields are the model's own (INVENTORY.md, State). -/
structure State where
  /-- The parameters of the instance (00_scope.md R6); no step changes them (20_memory.md R54; log 1). -/
  config : Config
  /-- register_file. -/
  rf : RegisterFile
  /-- segment_buffer_array. -/
  mm : MemoryMap
  /-- What is still to be presented at the port, the next input first (log 3). -/
  inputs : List PortInput
  /-- The response word the port gave in the last step, if that step ran a command (log 5). -/
  response : Option RspWord
  /-- Every error so far, the newest first, never cleared (60_exceptions.md R177; log 2). -/
  faults : List CommandError
deriving DecidableEq, Repr

/-- Reasons for the machine to stop with a fault: none. Every error of the CORE is a response (60_exceptions.md R170), the CORE
goes on after each of them (R177, R182), and it never blocks or waits (R189), so nothing raises a fault (log 10). -/
inductive Fault where
deriving DecidableEq, Repr

/-- Reasons for the model to give no meaning. -/
inductive Refusal where
  /-- Raised by an arm of `exec` whose instruction has no meaning yet: no arm does. Safe: the model stops. -/
  | notModelled (mnemonic : String)
  /-- Raised by a step that applies a reset while the configuration breaks 70_reset_and_hazards.md R201 ("A configuration that
  breaks any of these is refused: there is no instance"; U6). Safe: the model stops, and no run from a legal construction
  meets it. -/
  | invalidConfiguration
deriving DecidableEq, Repr

/-- The machine right after reset, as the default instance (00_scope.md R6): LITTLE, every register byte, buffer byte and IE
0x00 (10_state.md R42, R43, R44 with their default), nothing presented yet. `construct` (Machine/Reset.lean) gives the state
after reset of every other instance (log 7). -/
def State.reset : State where
  config := Config.default
  rf := ⟨#v[0x00#8, 0x00#8, 0x00#8, 0x00#8, 0x00#8, 0x00#8, 0x00#8, 0x00#8, 0x00#8, 0x00#8, 0x00#8, 0x00#8]⟩
  mm := ⟨[], [], [], [], [], [], [], 0x00#8⟩
  inputs := []
  response := none
  faults := []

/-! ### Updates of one field -/

/-- The register store is replaced. -/
def State.setRf (s : State) (rf : RegisterFile) : State := { s with rf := rf }

/-- The memory map's storage is replaced. -/
def State.setMm (s : State) (mm : MemoryMap) : State := { s with mm := mm }

/-- What is still to be presented at the port is replaced. -/
def State.setInputs (s : State) (inputs : List PortInput) : State := { s with inputs := inputs }

/-- The port's response is replaced. -/
def State.setResponse (s : State) (response : Option RspWord) : State := { s with response := response }

/-- One more error is recorded (60_exceptions.md R177). -/
def State.recordFault (s : State) (e : CommandError) : State := { s with faults := e :: s.faults }

end Sys2Proof.Machine
end

