-- ==== Sys2Proof/Machine/Operands.lean ====
section
/-! DEFINITION. The register operands: where each name stands in the 12-byte store, how wide it is, and how its bytes are read
and written (10_state.md R20 to R29; 20_memory.md R50 to R53). -/

namespace Sys2Proof

/-- `size(r)` in bytes (10_state.md R23). -/
def Reg.size : Reg → Nat
  | .a => 1
  | .b => 1
  | .c => 1
  | .d => 1
  | .e => 1
  | .f => 1
  | .h => 1
  | .l => 1
  | .af => 2
  | .bc => 2
  | .de => 2
  | .hl => 2
  | .sp => 2
  | .pc => 2

/-- `off(r)`: the slot of the register's first byte (10_state.md R23). -/
def Reg.off : Reg → Fin 12
  | .f => 0
  | .a => 1
  | .c => 2
  | .b => 3
  | .e => 4
  | .d => 5
  | .l => 6
  | .h => 7
  | .af => 0
  | .bc => 2
  | .de => 4
  | .hl => 6
  | .sp => 8
  | .pc => 10

/-- The high-address slot `off(r)+1` of a size-2 register (10_state.md R24). -/
def Reg.offHigh (r : Reg) : Fin 12 := r.off + 1

namespace Machine

/-- `combine` of the low-address and the high-address slot (20_memory.md R50). -/
def combine (endian : Endian) (loSlot hiSlot : Byte) : Dword :=
  match endian with
  | .little => hiSlot ++ loSlot
  | .big => loSlot ++ hiSlot

/-- `split(v) : (lo_slot, hi_slot)` (20_memory.md R51). -/
def split (endian : Endian) (v : Dword) : Byte × Byte :=
  match endian with
  | .little => (v.extractLsb' 0 8, v.extractLsb' 8 8)
  | .big => (v.extractLsb' 8 8, v.extractLsb' 0 8)

/-- `x[i]` (00_scope.md R8). -/
def RegisterFile.slot (rf : RegisterFile) (i : Fin 12) : Byte := rf.x.get i

/-- `x[i] <- v` (00_scope.md R8). -/
def RegisterFile.setSlot (rf : RegisterFile) (i : Fin 12) (v : Byte) : RegisterFile := ⟨rf.x.set i v⟩

/-- The byte of a size-1 register (40_register_file.md R111). -/
def RegisterFile.readWord (rf : RegisterFile) (r : Reg) : Byte := rf.slot r.off

/-- The byte of a size-1 register is written, unmasked (R112, 10_state.md R26). -/
def RegisterFile.writeWord (rf : RegisterFile) (r : Reg) (v : Byte) : RegisterFile := rf.setSlot r.off v

/-- The 16-bit value of a size-2 register (R113). -/
def RegisterFile.readDword (endian : Endian) (rf : RegisterFile) (r : Reg) : Dword :=
  combine endian (rf.slot r.off) (rf.slot r.offHigh)

/-- Both bytes of a size-2 register are written (R114). -/
def RegisterFile.writeDword (endian : Endian) (rf : RegisterFile) (r : Reg) (v : Dword) : RegisterFile :=
  (rf.setSlot r.off (split endian v).1).setSlot r.offHigh (split endian v).2

/-- The one byte of a size-1 register is copied (R115). -/
def RegisterFile.copyWord (rf : RegisterFile) (dst src : Reg) : RegisterFile := rf.setSlot dst.off (rf.slot src.off)

/-- The two bytes of a size-2 register are copied slot to slot, both read before either is written (R115). -/
def RegisterFile.copyDword (rf : RegisterFile) (dst src : Reg) : RegisterFile :=
  (rf.setSlot dst.off (rf.slot src.off)).setSlot dst.offHigh (rf.slot src.offHigh)

end Machine

end Sys2Proof
end

