-- ==== Sys2Proof/Machine/Flags.lean ====
section
/-! DEFINITION. The status flags: a 4-bit set over the high nibble of F (10_state.md R30 to R33). No command computes a flag from
a result (40_register_file.md R120), so the conversions between a byte and a flag set are all there is. -/

namespace Sys2Proof.Machine

/-- A `StatusFlags` value: any subset of Z, N, H and C (10_state.md R30). -/
structure StatusFlags where
  /-- Z, zero. -/
  z : Bool
  /-- N, subtract. -/
  n : Bool
  /-- H, half-carry. -/
  h : Bool
  /-- C, carry. -/
  c : Bool
deriving DecidableEq, Repr

/-- The mask of a flag in F (10_state.md R30). -/
def flagMask : Flag → Byte
  | .z => 0x80#8
  | .n => 0x40#8
  | .h => 0x20#8
  | .c => 0x10#8

/-- The mask of a flag that is a member, and no bit otherwise. -/
def memberMask (member : Bool) (f : Flag) : Byte :=
  match member with
  | true => flagMask f
  | false => 0x00#8

/-- A flag set as a byte: the OR of its members' masks, bits 3:0 zero (10_state.md R30). -/
def StatusFlags.toByte (fs : StatusFlags) : Byte :=
  memberMask fs.z .z ||| memberMask fs.n .n ||| memberMask fs.h .h ||| memberMask fs.c .c

/-- The flag is a member of the set whose byte this is. -/
def flagSetIn (b : Byte) (f : Flag) : Bool := (b &&& flagMask f) != 0x00#8

/-- The flag set of a byte; none when the low nibble is not zero: "constructing flags from a byte with low-nibble bits set is an
error" (40_register_file.md R116, R117; 60_exceptions.md R172). -/
def StatusFlags.ofByte (b : Byte) : Option StatusFlags :=
  match b.extractLsb' 0 4 == 0x0#4 with
  | true => some ⟨flagSetIn b .z, flagSetIn b .n, flagSetIn b .h, flagSetIn b .c⟩
  | false => none

end Sys2Proof.Machine
end

