-- ==== Sys2Proof/Machine/Ops.lean ====
section
/-! DEFINITION. The named operations over memory (20_memory.md, 41_memory_map.md), the response of a command (30_encoding.md R90,
R91), and raising an error (60_exceptions.md). -/

namespace Sys2Proof.Machine

/-! ### One buffer -/

/-- What an unlisted offset reads as: the default reset contents (10_state.md R43, 92_eei_decisions.md D11). -/
def Memory.unlisted : Byte := 0x00#8

/-- The byte at an offset. -/
def Memory.read : Memory → Nat → Byte
  | [], _ => Memory.unlisted
  | (j, b) :: rest, k =>
    match decide (j = k) with
    | true => b
    | false => Memory.read rest k

/-- The cell of an offset, put in front of cells that lie above it; an unlisted value needs no cell. -/
def Memory.cons (k : Nat) (v : Byte) (rest : Memory) : Memory :=
  match v == Memory.unlisted with
  | true => rest
  | false => (k, v) :: rest

/-- A byte is stored at an offset; the canonical form is kept. -/
def Memory.write : Memory → Nat → Byte → Memory
  | [], k, v => Memory.cons k v []
  | (j, b) :: rest, k, v =>
    match compare j k with
    | .lt => (j, b) :: Memory.write rest k v
    | .eq => Memory.cons k v rest
    | .gt => Memory.cons k v ((j, b) :: rest)

/-- The cells of a byte image from an offset on. -/
def Memory.ofBytes : Nat → List Byte → Memory
  | _, [] => []
  | k, b :: bs => Memory.cons k b (Memory.ofBytes (k + 1) bs)

/-- Offsets strictly rise from `lo` on and stay below `size`, and no cell holds what an unlisted offset reads as. -/
def Memory.wfFrom (lo size : Nat) : Memory → Bool
  | [] => true
  | (k, b) :: rest => decide (lo ≤ k) && decide (k < size) && (b != Memory.unlisted) && Memory.wfFrom (k + 1) size rest

/-- The canonical form of a buffer of `size` bytes. -/
def Memory.wf (size : Nat) (m : Memory) : Bool := Memory.wfFrom 0 size m

/-! ### The memory map -/

/-- The first address of a segment (10_state.md R36). -/
def segmentBase : Segment → Nat
  | .rom => 0x0000
  | .vram => 0x8000
  | .extram => 0xA000
  | .wram => 0xC000
  | .oam => 0xFE00
  | .io => 0xFF00
  | .hram => 0xFF80

/-- The number of bytes of a segment (10_state.md R36). -/
def segmentSize : Segment → Nat
  | .rom => 0x8000
  | .vram => 0x2000
  | .extram => 0x2000
  | .wram => 0x2000
  | .oam => 0xA0
  | .io => 0x80
  | .hram => 0x7F

/-- A storage location: the IE byte, or a byte of a segment buffer (41_memory_map.md R150). -/
inductive Location where
  | ie
  | byte (seg : Segment) (offset : Nat)
deriving DecidableEq, Repr

/-- `Seg(addr)`, the sub-block memory_map_decoder: the address dispatch in the document's order, none for the gap
(41_memory_map.md R150). -/
def locate (addr : Addr) : Option Location :=
  let a := addr.toNat
  if a = 0xFFFF then some .ie
  else if a ≤ 0x7FFF then some (.byte .rom a)
  else if 0x8000 ≤ a ∧ a ≤ 0x9FFF then some (.byte .vram (a - 0x8000))
  else if 0xA000 ≤ a ∧ a ≤ 0xBFFF then some (.byte .extram (a - 0xA000))
  else if 0xC000 ≤ a ∧ a ≤ 0xDFFF then some (.byte .wram (a - 0xC000))
  else if 0xFE00 ≤ a ∧ a ≤ 0xFE9F then some (.byte .oam (a - 0xFE00))
  else if 0xFF00 ≤ a ∧ a ≤ 0xFF7F then some (.byte .io (a - 0xFF00))
  else if 0xFF80 ≤ a ∧ a ≤ 0xFFFE then some (.byte .hram (a - 0xFF80))
  else if 0xE000 ≤ a ∧ a ≤ 0xFDFF then some (.byte .wram (a - 0xE000))
  else none

/-- The buffer of a segment. -/
def MemoryMap.buffer (mm : MemoryMap) : Segment → Memory
  | .rom => mm.rom
  | .vram => mm.vram
  | .extram => mm.extram
  | .wram => mm.wram
  | .oam => mm.oam
  | .io => mm.io
  | .hram => mm.hram

/-- The buffer of a segment is replaced; the buffers share no storage (10_state.md R36). -/
def MemoryMap.setBuffer (mm : MemoryMap) (seg : Segment) (m : Memory) : MemoryMap :=
  match seg with
  | .rom => { mm with rom := m }
  | .vram => { mm with vram := m }
  | .extram => { mm with extram := m }
  | .wram => { mm with wram := m }
  | .oam => { mm with oam := m }
  | .io => { mm with io := m }
  | .hram => { mm with hram := m }

/-- The byte at a location. -/
def MemoryMap.load (mm : MemoryMap) : Location → Byte
  | .ie => mm.ie
  | .byte seg offset => (mm.buffer seg).read offset

/-- A byte is stored at a location, and nothing else happens (20_memory.md R59). -/
def MemoryMap.store (mm : MemoryMap) (loc : Location) (v : Byte) : MemoryMap :=
  match loc with
  | .ie => { mm with ie := v }
  | .byte seg offset => mm.setBuffer seg ((mm.buffer seg).write offset v)

/-- `MemRead(addr, 1)` (41_memory_map.md R150); none in the gap. -/
def memRead (mm : MemoryMap) (addr : Addr) : Option Byte := (locate addr).map mm.load

/-- `MemWrite(addr, 1, v)` (41_memory_map.md R150); none in the gap. -/
def memWrite (mm : MemoryMap) (addr : Addr) (v : Byte) : Option MemoryMap := (locate addr).map fun loc => mm.store loc v

/-- Every buffer is in canonical form and within its size. -/
def MemoryMap.wf (mm : MemoryMap) : Bool :=
  mm.rom.wf (segmentSize .rom) && mm.vram.wf (segmentSize .vram) && mm.extram.wf (segmentSize .extram)
    && mm.wram.wf (segmentSize .wram) && mm.oam.wf (segmentSize .oam) && mm.io.wf (segmentSize .io)
    && mm.hram.wf (segmentSize .hram)

/-! ### The response -/

/-- STATUS of the response (30_encoding.md R91); 5 to 7 are never produced, so they have no name. -/
inductive Status where
  | ok
  | error (e : CommandError)
deriving DecidableEq, Repr

/-- The status codes (30_encoding.md R91). -/
def Status.code : Status → BitVec 3
  | .ok => 0#3
  | .error .sizeMismatch => 1#3
  | .error .invalidFlagState => 2#3
  | .error .unmappedAddress => 3#3
  | .error .illegalCommand => 4#3

/-- `rsp[31:0]`: bits 31:19 zero, STATUS, RDATA (30_encoding.md R90). -/
def responseWord (status : Status) (rdata : Dword) : RspWord := 0#13 ++ status.code ++ rdata

/-- `rsp[31:19]`. -/
def rspZero (rsp : RspWord) : BitVec 13 := rsp.extractLsb' 19 13

/-- `rsp[18:16]`, STATUS. -/
def rspStatus (rsp : RspWord) : BitVec 3 := rsp.extractLsb' 16 3

/-- `rsp[15:0]`, RDATA. -/
def rspData (rsp : RspWord) : Dword := rsp.extractLsb' 0 16

/-! ### Ending a command -/

/-- `return v` (00_scope.md R8): the command ends with STATUS OK and response data `v`. -/
def succeed (rdata : Dword) (s : State) : Host.Outcome State Fault Refusal :=
  .next (s.setResponse (some (responseWord .ok rdata)))

/-- What an error leaves: its STATUS with RDATA 0 in the response, no other change of the CORE (60_exceptions.md R175, R176), and
the model's record of it (R177). There is no trap entry: no register is saved, no mode changes and no vector is taken (R181), so
there is no return from one either (R182). -/
def State.afterError (s : State) (e : CommandError) : State :=
  (s.recordFault e).setResponse (some (responseWord (.error e) 0#16))

/-- `raise <Error>` (00_scope.md R8): the command ends with that error, and the CORE goes on (60_exceptions.md R177). -/
def raise (e : CommandError) (s : State) : Host.Outcome State Fault Refusal := .next (s.afterError e)

end Sys2Proof.Machine
end

