-- ==== Sys2Proof/Machine/MemoryMap.lean ====
section
/-! DEFINITION. The two memory-map commands (41_memory_map.md R150 to R154), one meaning each. -/

namespace Sys2Proof.Machine

/-- READ_BYTE (41_memory_map.md R151). -/
def execReadByte (address : Addr) (s : State) : Host.Outcome State Fault Refusal :=
  match memRead s.mm address with
  | none => raise .unmappedAddress s
  | some b => succeed (zext16 b) s

/-- WRITE_BYTE (41_memory_map.md R152). -/
def execWriteByte (address : Addr) (byte : Byte) (s : State) : Host.Outcome State Fault Refusal :=
  match memWrite s.mm address byte with
  | none => raise .unmappedAddress s
  | some mm => succeed 0#16 (s.setMm mm)

end Sys2Proof.Machine
end

