-- ==== Sys2Proof/Machine/RegisterFile.lean ====
section
/-! DEFINITION. The seven register-file commands (40_register_file.md R110 to R123), one meaning each. -/

namespace Sys2Proof.Machine

/-- READ_WORD (40_register_file.md R111). -/
def execReadWord (reg : Reg) (s : State) : Host.Outcome State Fault Refusal :=
  if reg.size ≠ 1 then raise .sizeMismatch s
  else succeed (zext16 (s.rf.readWord reg)) s

/-- WRITE_WORD (40_register_file.md R112). -/
def execWriteWord (reg : Reg) (byte : Byte) (s : State) : Host.Outcome State Fault Refusal :=
  if reg.size ≠ 1 then raise .sizeMismatch s
  else succeed 0#16 (s.setRf (s.rf.writeWord reg byte))

/-- READ_DWORD (40_register_file.md R113). -/
def execReadDword (reg : Reg) (s : State) : Host.Outcome State Fault Refusal :=
  if reg.size ≠ 2 then raise .sizeMismatch s
  else succeed (s.rf.readDword s.config.targetEndian reg) s

/-- WRITE_DWORD (40_register_file.md R114). -/
def execWriteDword (reg : Reg) (word16 : Dword) (s : State) : Host.Outcome State Fault Refusal :=
  if reg.size ≠ 2 then raise .sizeMismatch s
  else succeed 0#16 (s.setRf (s.rf.writeDword s.config.targetEndian reg word16))

/-- COPY_REGISTER (40_register_file.md R115). -/
def execCopyRegister (dst src : Reg) (s : State) : Host.Outcome State Fault Refusal :=
  if dst.size ≠ src.size then raise .sizeMismatch s
  else if src.size = 1 then succeed 0#16 (s.setRf (s.rf.copyWord dst src))
  else succeed 0#16 (s.setRf (s.rf.copyDword dst src))

/-- GET_FLAGS (40_register_file.md R116): F read as a flag set, answered as the set's byte. -/
def execGetFlags (s : State) : Host.Outcome State Fault Refusal :=
  match StatusFlags.ofByte (s.rf.readWord .f) with
  | none => raise .invalidFlagState s
  | some flags => succeed (zext16 flags.toByte) s

/-- SET_FLAGS (40_register_file.md R117): the whole of F becomes the set's byte. -/
def execSetFlags (flagbyte : Byte) (s : State) : Host.Outcome State Fault Refusal :=
  match StatusFlags.ofByte flagbyte with
  | none => raise .invalidFlagState s
  | some flags => succeed 0#16 (s.setRf (s.rf.writeWord .f flags.toByte))

end Sys2Proof.Machine
end

