-- ==== Sys2Proof/Machine/Dispatch.lean ====
section
/-! DEFINITION. One arm per command. -/

namespace Sys2Proof.Machine

/-- A decoded command, run as one atomic step (00_scope.md R5, R8). -/
def exec (i : Instr) (s : State) : Host.Outcome State Fault Refusal :=
  match i with
  | .readWord reg => Sys2Proof.Machine.execReadWord reg s
  | .writeWord reg byte => Sys2Proof.Machine.execWriteWord reg byte s
  | .readDword reg => Sys2Proof.Machine.execReadDword reg s
  | .writeDword reg word16 => Sys2Proof.Machine.execWriteDword reg word16 s
  | .copyRegister dst src => Sys2Proof.Machine.execCopyRegister dst src s
  | .getFlags => Sys2Proof.Machine.execGetFlags s
  | .setFlags flagbyte => Sys2Proof.Machine.execSetFlags flagbyte s
  | .readByte address => Sys2Proof.Machine.execReadByte address s
  | .writeByte address byte => Sys2Proof.Machine.execWriteByte address byte s

end Sys2Proof.Machine
end

