-- ==== Sys2Proof/Machine/Reset.lean ====
section
/-! DEFINITION. Reset (70_reset_and_hazards.md R200 to R203): the contents the configuration gives, what makes a configuration
legal, the construction of an instance, and a reset applied again. -/

namespace Sys2Proof

/-- A given image has exactly the size asked for; none given is legal (70_reset_and_hazards.md R201). -/
def imageFits (size : Nat) : Option (List Byte) → Bool
  | none => true
  | some bytes => decide (bytes.length = size)

namespace Machine

/-- The configuration breaks nothing that 70_reset_and_hazards.md R201 asks. TARGET_ENDIAN and INIT_IE are right by their types. -/
def configLegal (c : Config) : Bool :=
  imageFits 12 c.initRegs && imageFits (segmentSize .rom) c.initRom && imageFits (segmentSize .vram) c.initVram
    && imageFits (segmentSize .extram) c.initExtram && imageFits (segmentSize .wram) c.initWram
    && imageFits (segmentSize .oam) c.initOam && imageFits (segmentSize .io) c.initIo
    && imageFits (segmentSize .hram) c.initHram

/-- Byte `i` of an image, 0x00 where none is given (10_state.md R42, R43). -/
def imageByte (image : Option (List Byte)) (i : Nat) : Byte :=
  match image with
  | none => 0x00#8
  | some bytes => bytes.getD i 0x00#8

/-- The register store after reset (10_state.md R42). -/
def initialRegisterFile (c : Config) : RegisterFile :=
  ⟨#v[imageByte c.initRegs 0, imageByte c.initRegs 1, imageByte c.initRegs 2, imageByte c.initRegs 3,
    imageByte c.initRegs 4, imageByte c.initRegs 5, imageByte c.initRegs 6, imageByte c.initRegs 7,
    imageByte c.initRegs 8, imageByte c.initRegs 9, imageByte c.initRegs 10, imageByte c.initRegs 11]⟩

/-- A buffer after reset (10_state.md R43). -/
def initialBuffer (image : Option (List Byte)) : Memory :=
  match image with
  | none => []
  | some bytes => Memory.ofBytes 0 bytes

/-- The memory map's storage after reset (10_state.md R43, R44). -/
def initialMemoryMap (c : Config) : MemoryMap where
  rom := initialBuffer c.initRom
  vram := initialBuffer c.initVram
  extram := initialBuffer c.initExtram
  wram := initialBuffer c.initWram
  oam := initialBuffer c.initOam
  io := initialBuffer c.initIo
  hram := initialBuffer c.initHram
  ie := c.initIe

/-- The instance of a configuration right after its first reset; none for one that R201 refuses ("there is no instance"). -/
def construct (c : Config) : Option State :=
  match configLegal c with
  | true => some ⟨c, initialRegisterFile c, initialMemoryMap c, [], none, []⟩
  | false => none

/-- The components in a reset's scope are loaded from the configuration again; the other one is not touched
(70_reset_and_hazards.md R200, R203). -/
def State.reload (s : State) (scope : ResetScope) : State :=
  match scope with
  | .registerFile => s.setRf (initialRegisterFile s.config)
  | .memoryMap => s.setMm (initialMemoryMap s.config)
  | .both => (s.setRf (initialRegisterFile s.config)).setMm (initialMemoryMap s.config)

/-- A reset applied again (70_reset_and_hazards.md R203). It answers no response, since it is no command, and the record of
errors stays, since R177 asks for one that is never cleared (log 6). -/
def applyReset (scope : ResetScope) (s : State) : Host.Outcome State Fault Refusal :=
  match configLegal s.config with
  | true => .next ((s.reload scope).setResponse none)
  | false => .refused .invalidConfiguration

end Machine

end Sys2Proof
end

