-- ==== Sys2Proof/Machine/Port.lean ====
section
/-! DEFINITION. The command port: what one presented input does (00_scope.md R5; 30_encoding.md R80; 60_exceptions.md R174). -/

namespace Sys2Proof.Machine

/-- A command word is decoded and executed; a word that spells no command fails with IllegalCommand (60_exceptions.md R174, R178). -/
def runWord (w : CmdWord) (s : State) : Host.Outcome State Fault Refusal :=
  match decode w with
  | .ok i => exec i s
  | .error _ => raise .illegalCommand s

/-- One input of the port. -/
def runInput (input : PortInput) (s : State) : Host.Outcome State Fault Refusal :=
  match input with
  | .command w => runWord w s
  | .reset scope => applyReset scope s

/-- A step in which nothing is presented: no state changes and nothing is answered. DEDUCED (log 4): nothing of the CORE acts on
its own (10_state.md R40, 60_exceptions.md R185, R189). -/
def idle (s : State) : Host.Outcome State Fault Refusal := .next (s.setResponse none)

/-- The next input is taken from the port and runs; each step takes exactly one (20_memory.md R67). -/
def takeInput (s : State) : Host.Outcome State Fault Refusal :=
  match s.inputs with
  | [] => idle s
  | input :: rest => runInput input (s.setInputs rest)

/-- The word a number of the opcode table's numbering presents: its low `nbits` bits, every bit above them 0. DESIGN CHOICE, safe
(log 14): a command is 32 bits (30_encoding.md R80), and of a number of more than 32 bits, which spells no command
(`decodeTableWord` gives none), the port takes the low 32. -/
def tableWord (nbits w : Nat) : CmdWord := BitVec.ofNat 32 (w % 2 ^ nbits)

end Sys2Proof.Machine
end

