-- ==== Sys2Proof/Machine/Step.lean ====
section
/-! DEFINITION. The step of the machine. -/

namespace Sys2Proof.Machine

/-- One step: one command from the port, executed atomically and answered (00_scope.md R5, R8). -/
def step (s : State) : Host.Outcome State Fault Refusal := takeInput s

/-- The command that the table's numbering writes as `w`, presented as the next input of the port. The CORE fetches nothing
(20_memory.md R56): this stands for the requester presenting it (log 3); for a number of more than 32 bits, see log 14. -/
def State.withFetchWord (s : State) (nbits w : Nat) : State :=
  s.setInputs (.command (tableWord nbits w) :: s.inputs)

end Sys2Proof.Machine
end

