-- ==== Sys2Proof/WellFormed.lean ====
section
/-! DEFINITION. Which terms of Syntax.lean are well formed. -/

namespace Sys2Proof

/-- A command is well formed when every register operand has a legal code (30_encoding.md R84). Every operand's type has
exactly its field's width (R85) and `Reg` is the closed set of R21, so every term of `Instr` is well formed
(`Instr.wellFormed_all`, Laws/Encoding.lean; log 11). -/
def Instr.wellFormed : Instr → Bool
  | .readWord r => (Reg.ofCode r.code).isSome
  | .writeWord r _ => (Reg.ofCode r.code).isSome
  | .readDword r => (Reg.ofCode r.code).isSome
  | .writeDword r _ => (Reg.ofCode r.code).isSome
  | .copyRegister dst src => (Reg.ofCode dst.code).isSome && (Reg.ofCode src.code).isSome
  | .getFlags => true
  | .setFlags _ => true
  | .readByte _ => true
  | .writeByte _ _ => true

/-- A literal fits an 8-bit field (30_encoding.md R93). -/
def fitsImm8 (n : Nat) : Bool := decide (n ≤ 0xff)

/-- A literal fits a 16-bit field (R93). -/
def fitsImm16 (n : Nat) : Bool := decide (n ≤ 0xffff)

/-- A flag list names each of Z, N, H and C at most once, and a literal fits its field (R93). -/
def FlagOperand.wellFormed : FlagOperand → Bool
  | .list flags => decide flags.Nodup
  | .imm n => fitsImm8 n

/-- A line the assembler takes: every literal fits its field and no flag is named twice (R93). The size classes of the
registers are not checked there. -/
def AsmLine.wellFormed : AsmLine → Bool
  | .readWord _ => true
  | .writeWord _ n => fitsImm8 n
  | .readDword _ => true
  | .writeDword _ n => fitsImm16 n
  | .copyRegister _ _ => true
  | .getFlags => true
  | .setFlags operand => operand.wellFormed
  | .readByte addr => fitsImm16 addr
  | .writeByte addr n => fitsImm16 addr && fitsImm8 n

end Sys2Proof
end

