-- ==== Sys2Proof/Machine/Assembler.lean ====
section
/-! DEFINITION. The assembler's text (30_encoding.md R93) and the printing convention of 00_scope.md R10. It stands beside the
machine: no step uses it. Text is a list of characters. -/

namespace Sys2Proof.Machine

/-! ### Printing numbers (00_scope.md R10) -/

/-- A hexadecimal digit in lowercase. -/
def hexDigit (d : Nat) : Char :=
  match decide (d < 10) with
  | true => Char.ofNat (48 + d)
  | false => Char.ofNat (87 + d)

/-- Leading zeros are dropped; the last digit stays. -/
def dropLeadingZeros : List Nat → List Nat
  | [] => []
  | [d] => [d]
  | d :: rest =>
    match decide (d = 0) with
    | true => dropLeadingZeros rest
    | false => d :: rest

/-- A number below 65536 in "lowercase hexadecimal without zero-padding", after `0x` (00_scope.md R10). -/
def renderHex (n : Nat) : List Char :=
  ['0', 'x'] ++ (dropLeadingZeros [n / 4096 % 16, n / 256 % 16, n / 16 % 16, n % 16]).map hexDigit

/-! ### Names -/

/-- The nine mnemonics (30_encoding.md R93). -/
inductive Mnemonic where
  | readWord | writeWord | readDword | writeDword | copyRegister | getFlags | setFlags | readByte | writeByte
deriving DecidableEq, Repr

/-- The mnemonic's spelling, uppercase. -/
def Mnemonic.chars : Mnemonic → List Char
  | .readWord => ['R', 'E', 'A', 'D', '_', 'W', 'O', 'R', 'D']
  | .writeWord => ['W', 'R', 'I', 'T', 'E', '_', 'W', 'O', 'R', 'D']
  | .readDword => ['R', 'E', 'A', 'D', '_', 'D', 'W', 'O', 'R', 'D']
  | .writeDword => ['W', 'R', 'I', 'T', 'E', '_', 'D', 'W', 'O', 'R', 'D']
  | .copyRegister => ['C', 'O', 'P', 'Y', '_', 'R', 'E', 'G', 'I', 'S', 'T', 'E', 'R']
  | .getFlags => ['G', 'E', 'T', '_', 'F', 'L', 'A', 'G', 'S']
  | .setFlags => ['S', 'E', 'T', '_', 'F', 'L', 'A', 'G', 'S']
  | .readByte => ['R', 'E', 'A', 'D', '_', 'B', 'Y', 'T', 'E']
  | .writeByte => ['W', 'R', 'I', 'T', 'E', '_', 'B', 'Y', 'T', 'E']

/-- All nine mnemonics. -/
def Mnemonic.all : List Mnemonic :=
  [.readWord, .writeWord, .readDword, .writeDword, .copyRegister, .getFlags, .setFlags, .readByte, .writeByte]

/-- A register name's spelling, uppercase (10_state.md R21). -/
def regChars : Reg → List Char
  | .a => ['A']
  | .b => ['B']
  | .c => ['C']
  | .d => ['D']
  | .e => ['E']
  | .f => ['F']
  | .h => ['H']
  | .l => ['L']
  | .af => ['A', 'F']
  | .bc => ['B', 'C']
  | .de => ['D', 'E']
  | .hl => ['H', 'L']
  | .sp => ['S', 'P']
  | .pc => ['P', 'C']

/-- All fourteen register names. -/
def allRegs : List Reg := [.a, .b, .c, .d, .e, .f, .h, .l, .af, .bc, .de, .hl, .sp, .pc]

/-- A flag's letter (10_state.md R30). -/
def flagChars : Flag → List Char
  | .z => ['Z']
  | .n => ['N']
  | .h => ['H']
  | .c => ['C']

/-- All four flags. -/
def allFlags : List Flag := [.z, .n, .h, .c]

/-- The mnemonic a name spells. -/
def mnemonicNamed (name : List Char) : Option Mnemonic := Mnemonic.all.find? fun m => m.chars == name

/-- The register a name spells. -/
def regNamed (name : List Char) : Option Reg := allRegs.find? fun r => regChars r == name

/-- The flag a name spells. -/
def flagNamed (name : List Char) : Option Flag := allFlags.find? fun f => flagChars f == name

/-! ### Tokens -/

/-- A token of a line. -/
inductive Token where
  | name (chars : List Char)
  | number (n : Nat)
  | comma
  | openBrace
  | closeBrace
deriving DecidableEq, Repr

/-- The value of a digit, of either case. DESIGN CHOICE (log 12): uppercase hexadecimal digits are read too. -/
def digitValue (ch : Char) : Option Nat :=
  let n := ch.toNat
  if 48 ≤ n ∧ n ≤ 57 then some (n - 48)
  else if 97 ≤ n ∧ n ≤ 102 then some (n - 87)
  else if 65 ≤ n ∧ n ≤ 70 then some (n - 55)
  else none

/-- The number that digits of a base spell, after those read so far. -/
def digitsValue (base : Nat) : Nat → List Char → Option Nat
  | n, [] => some n
  | n, ch :: rest =>
    match digitValue ch with
    | none => none
    | some d => if d < base then digitsValue base (n * base + d) rest else none

/-- A literal: `0x` and hexadecimal digits, or decimal digits (30_encoding.md R93). -/
def literalValue : List Char → Option Nat
  | '0' :: 'x' :: d :: rest => digitsValue 16 0 (d :: rest)
  | '0' :: 'x' :: [] => none
  | [] => none
  | d :: rest => digitsValue 10 0 (d :: rest)

/-- A letter, a digit or `_`. -/
def isWordChar (ch : Char) : Bool :=
  let n := ch.toNat
  (48 ≤ n && n ≤ 57) || (65 ≤ n && n ≤ 90) || (97 ≤ n && n ≤ 122) || n == 95

/-- A whole word is a literal when it begins with a digit, and a name otherwise. -/
def wordToken (word : List Char) : Option Token :=
  match word with
  | [] => none
  | ch :: _ =>
    if 48 ≤ ch.toNat ∧ ch.toNat ≤ 57 then (literalValue word).map Token.number
    else some (.name word)

/-- The word read so far, last character first, becomes a token in front of the tokens that follow. -/
def endWord (word : List Char) (after : Option (List Token)) : Option (List Token) :=
  match word with
  | [] => after
  | _ :: _ =>
    match wordToken word.reverse, after with
    | some t, some ts => some (t :: ts)
    | _, _ => none

/-- The tokens of a line, none where a character belongs to no token. `;` starts a comment (30_encoding.md R93). DESIGN CHOICE
(log 12): spaces and tabs separate words and mean nothing else. -/
def lexLine : List Char → List Char → Option (List Token)
  | word, [] => endWord word (some [])
  | word, ch :: rest =>
    if isWordChar ch then lexLine (ch :: word) rest
    else if ch = ';' then endWord word (some [])
    else if ch = ' ' ∨ ch = '\t' then endWord word (lexLine [] rest)
    else if ch = ',' then endWord word ((lexLine [] rest).map (Token.comma :: ·))
    else if ch.toNat = 123 then endWord word ((lexLine [] rest).map (Token.openBrace :: ·))
    else if ch.toNat = 125 then endWord word ((lexLine [] rest).map (Token.closeBrace :: ·))
    else none

/-! ### Parsing -/

/-- The flags of a list from its first member on, to the closing brace that ends the line. -/
def parseFlags : List Token → Option (List Flag)
  | [.name f, .closeBrace] => (flagNamed f).map fun flag => [flag]
  | .name f :: .comma :: rest =>
    match flagNamed f, parseFlags rest with
    | some flag, some flags => some (flag :: flags)
    | _, _ => none
  | _ => none

/-- The operand of SET_FLAGS. -/
def parseFlagOperand : List Token → Option FlagOperand
  | [.number n] => some (.imm n)
  | [.openBrace, .closeBrace] => some (.list [])
  | .openBrace :: rest => (parseFlags rest).map FlagOperand.list
  | _ => none

/-- The operands of a mnemonic (30_encoding.md R93). -/
def parseOperands : Mnemonic → List Token → Option AsmLine
  | .readWord, [.name r] => (regNamed r).map AsmLine.readWord
  | .writeWord, [.name r, .comma, .number n] => (regNamed r).map fun r => .writeWord r n
  | .readDword, [.name r] => (regNamed r).map AsmLine.readDword
  | .writeDword, [.name r, .comma, .number n] => (regNamed r).map fun r => .writeDword r n
  | .copyRegister, [.name dst, .comma, .name src] =>
    match regNamed dst, regNamed src with
    | some dst, some src => some (.copyRegister dst src)
    | _, _ => none
  | .getFlags, [] => some .getFlags
  | .setFlags, operand => (parseFlagOperand operand).map AsmLine.setFlags
  | .readByte, [.number a] => some (.readByte a)
  | .writeByte, [.number a, .comma, .number n] => some (.writeByte a n)
  | _, _ => none

/-- A line's tokens as an assembler line. -/
def parseTokens : List Token → Option AsmLine
  | .name m :: operands => (mnemonicNamed m).bind fun m => parseOperands m operands
  | _ => none

/-! ### Assembling -/

/-- The OR of the masks of the listed flags (30_encoding.md R93, 10_state.md R30). -/
def flagListByte : List Flag → Byte
  | [] => 0x00#8
  | .z :: rest => 0x80#8 ||| flagListByte rest
  | .n :: rest => 0x40#8 ||| flagListByte rest
  | .h :: rest => 0x20#8 ||| flagListByte rest
  | .c :: rest => 0x10#8 ||| flagListByte rest

/-- The flag byte of an operand of SET_FLAGS. -/
def flagOperandByte : FlagOperand → Byte
  | .list flags => flagListByte flags
  | .imm n => BitVec.ofNat 8 n

/-- The command of a line, which is refused, never truncated, where a literal does not fit its field (30_encoding.md R93). -/
def assemble (line : AsmLine) : Option Instr :=
  match line.wellFormed with
  | false => none
  | true =>
    match line with
    | .readWord r => some (.readWord r)
    | .writeWord r n => some (.writeWord r (BitVec.ofNat 8 n))
    | .readDword r => some (.readDword r)
    | .writeDword r n => some (.writeDword r (BitVec.ofNat 16 n))
    | .copyRegister dst src => some (.copyRegister dst src)
    | .getFlags => some .getFlags
    | .setFlags operand => some (.setFlags (flagOperandByte operand))
    | .readByte a => some (.readByte (BitVec.ofNat 16 a))
    | .writeByte a n => some (.writeByte (BitVec.ofNat 16 a) (BitVec.ofNat 8 n))

/-- Why the assembler refuses a line. -/
inductive AsmError where
  /-- The text is no line of R93's syntax. -/
  | badSyntax
  /-- A literal does not fit its field, or a flag list names a flag twice. -/
  | badOperand
deriving DecidableEq, Repr

/-- The command word of a line of text; none for a line with no command on it. DESIGN CHOICE (log 12): such a line is taken. -/
def assembleLine (text : List Char) : Except AsmError (Option CmdWord) :=
  match lexLine [] text with
  | none => .error .badSyntax
  | some [] => .ok none
  | some tokens =>
    match parseTokens tokens with
    | none => .error .badSyntax
    | some line =>
      match assemble line with
      | none => .error .badOperand
      | some i => .ok (some (encode i))

/-- The lines of a text: one command a line (30_encoding.md R93). -/
def splitLines : List Char → List Char → List (List Char)
  | line, [] => [line.reverse]
  | line, ch :: rest => if ch = '\n' then line.reverse :: splitLines [] rest else splitLines (ch :: line) rest

/-- The command words of the lines, in order; the first refused line refuses the text. -/
def assembleLines : List (List Char) → Except AsmError (List CmdWord)
  | [] => .ok []
  | line :: rest =>
    match assembleLine line, assembleLines rest with
    | .error e, _ => .error e
    | _, .error e => .error e
    | .ok none, .ok words => .ok words
    | .ok (some w), .ok words => .ok (w :: words)

/-- The command words of a text. -/
def assembleText (text : List Char) : Except AsmError (List CmdWord) := assembleLines (splitLines [] text)

/-! ### Printing commands -/

/-- A mnemonic and its operands, which are separated by a comma. -/
def renderOperands : List (List Char) → List Char
  | [] => []
  | [operand] => ' ' :: operand
  | operand :: rest => ' ' :: operand ++ [','] ++ renderOperands rest

/-- A command as a line of assembler text, literals as R10 prints them. -/
def renderInstr : Instr → List Char
  | .readWord r => Mnemonic.readWord.chars ++ renderOperands [regChars r]
  | .writeWord r byte => Mnemonic.writeWord.chars ++ renderOperands [regChars r, renderHex byte.toNat]
  | .readDword r => Mnemonic.readDword.chars ++ renderOperands [regChars r]
  | .writeDword r v => Mnemonic.writeDword.chars ++ renderOperands [regChars r, renderHex v.toNat]
  | .copyRegister dst src => Mnemonic.copyRegister.chars ++ renderOperands [regChars dst, regChars src]
  | .getFlags => Mnemonic.getFlags.chars
  | .setFlags flagbyte => Mnemonic.setFlags.chars ++ renderOperands [renderHex flagbyte.toNat]
  | .readByte a => Mnemonic.readByte.chars ++ renderOperands [renderHex a.toNat]
  | .writeByte a byte => Mnemonic.writeByte.chars ++ renderOperands [renderHex a.toNat, renderHex byte.toNat]

end Sys2Proof.Machine
end

