-- ==== Sys2Proof/Safety.lean ====
section
/-! DEFINITION. What counts as a safe run, and the words that claims are stated in. -/

namespace Sys2Proof.Machine

/-- "No fault recorded", the premise 60_exceptions.md R177 asks claims to take. -/
abbrev State.noFaultRecorded (s : State) : Prop := s.faults = []

/-- The response word is one 30_encoding.md R90 and R91 allow, and where it reports an error that error is the newest on
record. -/
def State.responseWf (s : State) : Bool :=
  match s.response with
  | none => true
  | some rsp =>
    rspZero rsp == 0#13 &&
      (rspStatus rsp == 0#3 ||
        (rspData rsp == 0#16 &&
          match s.faults with
          | [] => false
          | e :: _ => rspStatus rsp == (Status.error e).code))

/-- The invariant of the machine: the configuration is legal (70_reset_and_hazards.md R201), every buffer is in canonical form and
within its size (10_state.md R36), and the response is well formed. -/
abbrev State.Inv (s : State) : Prop := configLegal s.config = true ∧ s.mm.wf = true ∧ s.responseWf = true

/-- An address of the gap 0xFEA0–0xFEFF, which has no storage (10_state.md R38). -/
abbrev inGap (a : Addr) : Prop := 0xFEA0 ≤ a.toNat ∧ a.toNat ≤ 0xFEFF

/-- The error a command raises in a state, if it raises one: the table of 60_exceptions.md R170 to R173. -/
def commandError (s : State) : Instr → Option CommandError
  | .readWord r | .writeWord r _ => if r.size = 2 then some .sizeMismatch else none
  | .readDword r | .writeDword r _ => if r.size = 1 then some .sizeMismatch else none
  | .copyRegister dst src => if dst.size = src.size then none else some .sizeMismatch
  | .getFlags => if (s.rf.slot 0).extractLsb' 0 4 = 0#4 then none else some .invalidFlagState
  | .setFlags b => if b.extractLsb' 0 4 = 0#4 then none else some .invalidFlagState
  | .readByte a | .writeByte a _ => if inGap a then some .unmappedAddress else none

/-- The data result of a command that succeeds: the table of 30_encoding.md R90. -/
def resultData (s : State) : Instr → Dword
  | .readWord r => zext16 (s.rf.slot r.off)
  | .readDword r => combine s.config.targetEndian (s.rf.slot r.off) (s.rf.slot r.offHigh)
  | .getFlags => zext16 (s.rf.slot 0)
  | .readByte a =>
    match locate a with
    | some loc => zext16 (s.mm.load loc)
    | none => 0x0000#16
  | .writeWord _ _ | .writeDword _ _ | .copyRegister _ _ | .setFlags _ | .writeByte _ _ => 0x0000#16

/-- The slots of a register: `x[off(r)]` to `x[off(r)+size(r)-1]` (10_state.md R23). -/
def Reg.slots (r : Reg) : List (Fin 12) :=
  if r.size = 1 then [r.off] else [r.off, r.offHigh]

/-- The register bytes a successful command writes: the table of 40_register_file.md R122; the memory-map commands write none
(10_state.md R41). -/
def writtenSlots : Instr → List (Fin 12)
  | .writeWord r _ | .writeDword r _ => Reg.slots r
  | .copyRegister dst _ => Reg.slots dst
  | .setFlags _ => [0]
  | .readWord _ | .readDword _ | .getFlags | .readByte _ | .writeByte _ _ => []

/-- A command of the register-file family (30_encoding.md R80, format R). -/
def isRegisterFileCommand : Instr → Bool
  | .readWord _ | .writeWord _ _ | .readDword _ | .writeDword _ _ | .copyRegister _ _ | .getFlags | .setFlags _ => true
  | .readByte _ | .writeByte _ _ => false

/-- Commands run one after another, each from the state the one before it left (20_memory.md R67). -/
def runCommands : List Instr → State → Host.Outcome State Fault Refusal
  | [], s => .next s
  | i :: rest, s =>
    match exec i s with
    | .next t => runCommands rest t
    | .fault r => .fault r
    | .refused r => .refused r

/-- The byte the last WRITE_BYTE to a location writes, of commands that run one after another; none where no one writes
there. -/
def lastWritten (loc : Location) : List Instr → Option Byte
  | [] => none
  | i :: rest =>
    match lastWritten loc rest with
    | some b => some b
    | none =>
      match i with
      | .writeByte a b => if locate a = some loc then some b else none
      | .readWord _ | .writeWord _ _ | .readDword _ | .writeDword _ _ | .copyRegister _ _ | .getFlags | .setFlags _
      | .readByte _ => none

/-- What the configuration gives byte `k` of a segment at reset (10_state.md R43). -/
def resetByte (c : Config) (seg : Segment) (k : Nat) : Byte :=
  match c.image seg with
  | none => 0x00#8
  | some bytes => bytes.getD k 0x00#8

/-- What the configuration gives `x[i]` at reset (10_state.md R42). -/
def resetSlot (c : Config) (i : Fin 12) : Byte :=
  match c.initRegs with
  | none => 0x00#8
  | some bytes => bytes.getD i.val 0x00#8

end Sys2Proof.Machine
end

