-- ==== Sys2Proof/Certificates/Slice0/Obligations.lean ====
section
/-! DEFINITION. The statements for the provers. Each docstring names the rule of spec/ it formalises. Where a statement speaks of
`faults`, `inputs`, `response` or `config`, it speaks of the model's own fields (INVENTORY.md, State; log entries 1 to 6): a clause
`faults := e :: s.faults` is the record 60_exceptions.md R177 asks a model to keep, in the model's form (log 2), and `response` is
the word of 30_encoding.md R90 as the port gives it (log 5). -/

open Sys2Proof Sys2Proof.Machine

/-! ### Encoding -/

/-- Decoding the encoding of a command gives the command back, with every operand at every value (30_encoding.md, sections 1
and 2). No well-formedness premise: every term of `Instr` is well formed (log 11). -/
def Obligations.DecodeOfEncodeIsTheCommand : Prop :=
  ∀ i : Instr, decode (encode i) = .ok i

/-- A word that decodes is the encoding of what it decodes to: no bit of a legal word is dropped (30_encoding.md, sections 1 to 3). -/
def Obligations.EncodeOfDecodedIsTheWord : Prop :=
  ∀ (w : CmdWord) (i : Instr), decode w = .ok i → encode i = w

/-- R86: a word is a command exactly when its fixed bits are its row's and every register field it uses holds a legal code; a non-zero
low nibble of SET_FLAGS is a legal word that fails with InvalidFlagState at execution. The operands are the fields 30_encoding.md,
section 2, names. -/
def Obligations.CommandsAreExactlyTheTableRows : Prop :=
  ∀ w : CmdWord,
    (∀ r, decode w = .ok (.readWord r) ↔
      w &&& 0xF0FFFFFF#32 = 0x10000000#32 ∧ Reg.ofCode (w.extractLsb' 24 4) = some r) ∧
    (∀ r b, decode w = .ok (.writeWord r b) ↔
      w &&& 0xF0FFFF00#32 = 0x20000000#32 ∧ Reg.ofCode (w.extractLsb' 24 4) = some r ∧ w.extractLsb' 0 8 = b) ∧
    (∀ r, decode w = .ok (.readDword r) ↔
      w &&& 0xF0FFFFFF#32 = 0x30000000#32 ∧ Reg.ofCode (w.extractLsb' 24 4) = some r) ∧
    (∀ r v, decode w = .ok (.writeDword r v) ↔
      w &&& 0xF0FF0000#32 = 0x40000000#32 ∧ Reg.ofCode (w.extractLsb' 24 4) = some r ∧ w.extractLsb' 0 16 = v) ∧
    (∀ dst src, decode w = .ok (.copyRegister dst src) ↔
      w &&& 0xF00FFFFF#32 = 0x50000000#32 ∧ Reg.ofCode (w.extractLsb' 24 4) = some dst ∧
        Reg.ofCode (w.extractLsb' 20 4) = some src) ∧
    (decode w = .ok .getFlags ↔ w &&& 0xFFFFFFFF#32 = 0x60000000#32) ∧
    (∀ b, decode w = .ok (.setFlags b) ↔ w &&& 0xFFFFFF00#32 = 0x70000000#32 ∧ w.extractLsb' 0 8 = b) ∧
    (∀ b s, decode w = .ok (.setFlags b) → w.extractLsb' 0 4 ≠ 0x0#4 → ∃ t, exec (.setFlags b) s = .next t ∧
      t.response = some (responseWord (.error .invalidFlagState) 0x0000#16)) ∧
    (∀ a, decode w = .ok (.readByte a) ↔ w &&& 0xFF0000FF#32 = 0x80000000#32 ∧ w.extractLsb' 8 16 = a) ∧
    (∀ a b, decode w = .ok (.writeByte a b) ↔
      w &&& 0xFF000000#32 = 0x90000000#32 ∧ w.extractLsb' 8 16 = a ∧ w.extractLsb' 0 8 = b)

/-- R87, R174: the words that spell no command are exactly those of the three cases, and each one fails with IllegalCommand and
changes no state. The clause on `faults` is the model's record (log 2). -/
def Obligations.IllegalWordsFailWithIllegalCommand : Prop :=
  ∀ w : CmdWord,
    ((¬ ∃ i, decode w = .ok i) ↔
      (w.extractLsb' 28 4 = 0x0#4 ∨ 0xA ≤ (w.extractLsb' 28 4).toNat) ∨
      ((1 ≤ (w.extractLsb' 28 4).toNat ∧ (w.extractLsb' 28 4).toNat ≤ 4 ∧ 0xE ≤ (w.extractLsb' 24 4).toNat) ∨
        (w.extractLsb' 28 4 = 0x5#4 ∧ (0xE ≤ (w.extractLsb' 24 4).toNat ∨ 0xE ≤ (w.extractLsb' 20 4).toNat))) ∨
      ((w.extractLsb' 28 4 = 0x1#4 ∧ w &&& 0x00FFFFFF#32 ≠ 0#32) ∨
        (w.extractLsb' 28 4 = 0x2#4 ∧ w &&& 0x00FFFF00#32 ≠ 0#32) ∨
        (w.extractLsb' 28 4 = 0x3#4 ∧ w &&& 0x00FFFFFF#32 ≠ 0#32) ∨
        (w.extractLsb' 28 4 = 0x4#4 ∧ w &&& 0x00FF0000#32 ≠ 0#32) ∨
        (w.extractLsb' 28 4 = 0x5#4 ∧ w &&& 0x000FFFFF#32 ≠ 0#32) ∨
        (w.extractLsb' 28 4 = 0x6#4 ∧ w &&& 0x0FFFFFFF#32 ≠ 0#32) ∨
        (w.extractLsb' 28 4 = 0x7#4 ∧ w &&& 0x0FFFFF00#32 ≠ 0#32) ∨
        (w.extractLsb' 28 4 = 0x8#4 ∧ w &&& 0x0F0000FF#32 ≠ 0#32) ∨
        (w.extractLsb' 28 4 = 0x9#4 ∧ w &&& 0x0F000000#32 ≠ 0#32))) ∧
    ((¬ ∃ i, decode w = .ok i) → ∀ (s : State) (rest : List PortInput), s.inputs = .command w :: rest →
      step s = .next { s with inputs := rest, response := some (responseWord (.error .illegalCommand) 0x0000#16),
                              faults := .illegalCommand :: s.faults })

/-- No word belongs to the rows of two different commands of R86's table (30_encoding.md, section 3: "exactly one of"), and a word
that decodes belongs to the row of the command it decodes to. `ctorIdx` is the number of the constructor, which Lean itself gives:
equal numbers are the same one of the nine commands. -/
def Obligations.EncodingRowsAreDisjoint : Prop :=
  (∀ (i j : Instr) (w : CmdWord), i.row.covers w = true → j.row.covers w = true →
    i.ctorIdx = j.ctorIdx ∧ i.row = j.row) ∧
  (∀ (w : CmdWord) (i : Instr), decode w = .ok i → i.row.covers w = true)

/-- The register codes of 30_encoding.md, section 1: the table, the two codes that name nothing, and the size class read off code bit
3 (the last clause is the spec's own inference, "`size(r) = 1` exactly when `code[3] = 0`"). -/
def Obligations.RegisterCodesAreTheClosedSet : Prop :=
  (Reg.a.code = 0x0#4 ∧ Reg.b.code = 0x1#4 ∧ Reg.c.code = 0x2#4 ∧ Reg.d.code = 0x3#4 ∧ Reg.e.code = 0x4#4 ∧
    Reg.f.code = 0x5#4 ∧ Reg.h.code = 0x6#4 ∧ Reg.l.code = 0x7#4 ∧ Reg.af.code = 0x8#4 ∧ Reg.bc.code = 0x9#4 ∧
    Reg.de.code = 0xA#4 ∧ Reg.hl.code = 0xB#4 ∧ Reg.sp.code = 0xC#4 ∧ Reg.pc.code = 0xD#4) ∧
  (∀ r : Reg, Reg.ofCode r.code = some r) ∧
  (∀ c : BitVec 4, Reg.ofCode c = none ↔ c = 0xE#4 ∨ c = 0xF#4) ∧
  (∀ r : Reg, r.size = 1 ↔ r.code.getLsbD 3 = false)

/-- The worked encodings of 30_encoding.md, section 5 (the table that stands as R94): each assembler line gives its word. A sanity
statement. -/
def Obligations.WorkedEncodings : Prop :=
  assembleLine "READ_WORD A".toList = .ok (some 0x10000000#32) ∧
  assembleLine "READ_WORD F".toList = .ok (some 0x15000000#32) ∧
  assembleLine "WRITE_WORD F, 0x5".toList = .ok (some 0x25000005#32) ∧
  assembleLine "READ_DWORD AF".toList = .ok (some 0x38000000#32) ∧
  assembleLine "WRITE_DWORD AF, 0xaaff".toList = .ok (some 0x4800AAFF#32) ∧
  assembleLine "WRITE_DWORD BC, 0xbbcc".toList = .ok (some 0x4900BBCC#32) ∧
  assembleLine "COPY_REGISTER A, BC".toList = .ok (some 0x50900000#32) ∧
  assembleLine "GET_FLAGS".toList = .ok (some 0x60000000#32) ∧
  assembleLine ("SET_FLAGS ".toList ++ Char.ofNat 123 :: "Z, C".toList ++ [Char.ofNat 125]) = .ok (some 0x70000090#32) ∧
  assembleLine "READ_BYTE 0xe010".toList = .ok (some 0x80E01000#32) ∧
  assembleLine "WRITE_BYTE 0x7fff, 0x11".toList = .ok (some 0x907FFF11#32) ∧
  assembleLine "WRITE_BYTE 0xffff, 0x1f".toList = .ok (some 0x90FFFF1F#32)

/-- One word of every command, written out from 30_encoding.md, decodes to the command it stands for. A sanity statement. -/
def Obligations.DecodedSampleWords : Prop :=
  decode 0x11000000#32 = .ok (.readWord .b) ∧
  decode 0x200000AA#32 = .ok (.writeWord .a 0xAA#8) ∧
  decode 0x3C000000#32 = .ok (.readDword .sp) ∧
  decode 0x4D000150#32 = .ok (.writeDword .pc 0x0150#16) ∧
  decode 0x5BD00000#32 = .ok (.copyRegister .hl .pc) ∧
  decode 0x60000000#32 = .ok .getFlags ∧
  decode 0x70000090#32 = .ok (.setFlags 0x90#8) ∧
  decode 0x80E01000#32 = .ok (.readByte 0xE010#16) ∧
  decode 0x907FFF11#32 = .ok (.writeByte 0x7FFF#16 0x11#8)

/-! ### The register file's layout and byte order -/

/-- R23: the offset table, and which registers each byte of the store belongs to. -/
def Obligations.OffsetTable : Prop :=
  (Reg.f.off = 0 ∧ Reg.a.off = 1 ∧ Reg.c.off = 2 ∧ Reg.b.off = 3 ∧ Reg.e.off = 4 ∧ Reg.d.off = 5 ∧ Reg.l.off = 6 ∧
    Reg.h.off = 7 ∧ Reg.af.off = 0 ∧ Reg.bc.off = 2 ∧ Reg.de.off = 4 ∧ Reg.hl.off = 6 ∧ Reg.sp.off = 8 ∧ Reg.pc.off = 10) ∧
  (∀ r ∈ [Reg.f, .a, .c, .b, .e, .d, .l, .h], r.size = 1) ∧
  (∀ r ∈ [Reg.af, .bc, .de, .hl, .sp, .pc], r.size = 2 ∧ r.offHigh.val = r.off.val + 1) ∧
  (∀ i : Fin 12, ∃ r : Reg, (r.size = 2 ∧ (r.off = i ∨ r.offHigh = i)) ∧
    ∀ q : Reg, q.size = 2 ∧ (q.off = i ∨ q.offHigh = i) → q = r) ∧
  (∀ i : Fin 12, i.val < 8 → ∃ r : Reg, (r.size = 1 ∧ r.off = i) ∧ ∀ q : Reg, q.size = 1 ∧ q.off = i → q = r) ∧
  (∀ i : Fin 12, 8 ≤ i.val → ∀ q : Reg, q.size = 1 → q.off ≠ i)

/-- R50: which byte of a pair is the more significant one, under each byte order, as a number, of two bytes and of the two bytes of
every 2-byte register. -/
def Obligations.CombineByEndianness : Prop :=
  (∀ loSlot hiSlot : Byte,
    (combine .little loSlot hiSlot).toNat = hiSlot.toNat * 256 + loSlot.toNat ∧
    (combine .big loSlot hiSlot).toNat = loSlot.toNat * 256 + hiSlot.toNat) ∧
  (∀ (rf : RegisterFile) (r : Reg), r.size = 2 →
    (rf.readDword .little r).toNat = (rf.slot (r.off + 1)).toNat * 256 + (rf.slot r.off).toNat ∧
    (rf.readDword .big r).toNat = (rf.slot r.off).toNat * 256 + (rf.slot (r.off + 1)).toNat)

/-- 20_memory.md, section 1, the table of mixed-width accesses (an inference of the spec, R53): after WRITE_DWORD of a pair, READ_WORD
of its two members answers the halves of the value, which half by TARGET_ENDIAN. -/
def Obligations.MixedWidthViewsOfAPair : Prop :=
  ∀ (p lo hi : Reg), (p, lo, hi) ∈ [(Reg.af, Reg.f, Reg.a), (.bc, .c, .b), (.de, .e, .d), (.hl, .l, .h)] →
    ∀ (v : Dword) (s : State), ∃ t u u', exec (.writeDword p v) s = .next t ∧
      exec (.readWord lo) t = .next u ∧ exec (.readWord hi) t = .next u' ∧
      (s.config.targetEndian = .little →
        u.response = some (responseWord .ok (zext16 (v.extractLsb' 0 8))) ∧
        u'.response = some (responseWord .ok (zext16 (v.extractLsb' 8 8)))) ∧
      (s.config.targetEndian = .big →
        u.response = some (responseWord .ok (zext16 (v.extractLsb' 8 8))) ∧
        u'.response = some (responseWord .ok (zext16 (v.extractLsb' 0 8))))

/-! ### The register-file commands -/

/-- R111: READ_WORD. -/
def Obligations.ReadWordAnswersTheByte : Prop :=
  ∀ (r : Reg),
    (∀ s : State, r.size = 1 → exec (.readWord r) s =
      .next { s with response := some (responseWord .ok (zext16 (s.rf.slot r.off))) }) ∧
    (∀ s : State, r.size = 2 → exec (.readWord r) s =
      .next { s with response := some (responseWord (.error .sizeMismatch) 0x0000#16),
                     faults := .sizeMismatch :: s.faults }) ∧
    (∀ w : CmdWord, decode w = .ok (.readWord r) ↔
      w &&& 0xF0FFFFFF#32 = 0x10000000#32 ∧ w.extractLsb' 24 4 = r.code)

/-- R112: WRITE_WORD. The clause on GET_FLAGS: after WRITE_WORD F of a byte with a non-zero low nibble, GET_FLAGS fails from every state
whose F is still that byte. -/
def Obligations.WriteWordStoresTheByte : Prop :=
  ∀ (r : Reg) (b : Byte),
    (∀ s : State, r.size = 1 → exec (.writeWord r b) s =
      .next { s with rf := s.rf.setSlot r.off b, response := some (responseWord .ok 0x0000#16) }) ∧
    (∀ s : State, r.size = 2 → exec (.writeWord r b) s =
      .next { s with response := some (responseWord (.error .sizeMismatch) 0x0000#16),
                     faults := .sizeMismatch :: s.faults }) ∧
    (r = .f → b.extractLsb' 0 4 ≠ 0x0#4 → ∀ s : State, ∃ t, exec (.writeWord r b) s = .next t ∧ t.rf.slot 0 = b ∧
      ∀ t' : State, t'.rf.slot 0 = t.rf.slot 0 → ∃ u, exec .getFlags t' = .next u ∧
        u.response = some (responseWord (.error .invalidFlagState) 0x0000#16) ∧ u.rf = t'.rf) ∧
    (∀ w : CmdWord, decode w = .ok (.writeWord r b) ↔
      w &&& 0xF0FFFF00#32 = 0x20000000#32 ∧ w.extractLsb' 24 4 = r.code ∧ w.extractLsb' 0 8 = b)

/-- R113: READ_DWORD, under both byte orders. -/
def Obligations.ReadDwordCombinesThePair : Prop :=
  ∀ (r : Reg),
    (∀ s : State, r.size = 2 → s.config.targetEndian = .little → exec (.readDword r) s =
      .next { s with response := some (responseWord .ok (s.rf.slot (r.off + 1) ++ s.rf.slot r.off)) }) ∧
    (∀ s : State, r.size = 2 → s.config.targetEndian = .big → exec (.readDword r) s =
      .next { s with response := some (responseWord .ok (s.rf.slot r.off ++ s.rf.slot (r.off + 1))) }) ∧
    (∀ s : State, r.size = 1 → exec (.readDword r) s =
      .next { s with response := some (responseWord (.error .sizeMismatch) 0x0000#16),
                     faults := .sizeMismatch :: s.faults }) ∧
    (∀ w : CmdWord, decode w = .ok (.readDword r) ↔
      w &&& 0xF0FFFFFF#32 = 0x30000000#32 ∧ w.extractLsb' 24 4 = r.code)

/-- R114: WRITE_DWORD, under both byte orders. -/
def Obligations.WriteDwordSplitsTheValue : Prop :=
  ∀ (r : Reg) (v : Dword),
    (∀ s : State, r.size = 2 → s.config.targetEndian = .little → exec (.writeDword r v) s =
      .next { s with rf := (s.rf.setSlot r.off (v.extractLsb' 0 8)).setSlot (r.off + 1) (v.extractLsb' 8 8),
                     response := some (responseWord .ok 0x0000#16) }) ∧
    (∀ s : State, r.size = 2 → s.config.targetEndian = .big → exec (.writeDword r v) s =
      .next { s with rf := (s.rf.setSlot r.off (v.extractLsb' 8 8)).setSlot (r.off + 1) (v.extractLsb' 0 8),
                     response := some (responseWord .ok 0x0000#16) }) ∧
    (∀ s : State, r.size = 1 → exec (.writeDword r v) s =
      .next { s with response := some (responseWord (.error .sizeMismatch) 0x0000#16),
                     faults := .sizeMismatch :: s.faults }) ∧
    (∀ w : CmdWord, decode w = .ok (.writeDword r v) ↔
      w &&& 0xF0FF0000#32 = 0x40000000#32 ∧ w.extractLsb' 24 4 = r.code ∧ w.extractLsb' 0 16 = v)

/-- R115: COPY_REGISTER, with the corner cases `dst = src` and the 16-bit value kept under both byte orders. -/
def Obligations.CopyRegisterCopiesSlotToSlot : Prop :=
  ∀ (dst src : Reg),
    (∀ s : State, dst.size = 1 → src.size = 1 → exec (.copyRegister dst src) s =
      .next { s with rf := s.rf.setSlot dst.off (s.rf.slot src.off), response := some (responseWord .ok 0x0000#16) }) ∧
    (∀ s : State, dst.size = 2 → src.size = 2 → exec (.copyRegister dst src) s =
      .next { s with rf := (s.rf.setSlot dst.off (s.rf.slot src.off)).setSlot (dst.off + 1) (s.rf.slot (src.off + 1)),
                     response := some (responseWord .ok 0x0000#16) }) ∧
    (∀ s : State, dst.size ≠ src.size → exec (.copyRegister dst src) s =
      .next { s with response := some (responseWord (.error .sizeMismatch) 0x0000#16),
                     faults := .sizeMismatch :: s.faults }) ∧
    (∀ s : State, dst = src → exec (.copyRegister dst src) s =
      .next { s with response := some (responseWord .ok 0x0000#16) }) ∧
    (∀ (s : State) (e : Endian), dst.size = 2 → src.size = 2 → ∃ t, exec (.copyRegister dst src) s = .next t ∧
      combine e (t.rf.slot dst.off) (t.rf.slot (dst.off + 1)) = combine e (s.rf.slot src.off) (s.rf.slot (src.off + 1))) ∧
    (∀ w : CmdWord, decode w = .ok (.copyRegister dst src) ↔
      w &&& 0xF00FFFFF#32 = 0x50000000#32 ∧ w.extractLsb' 24 4 = dst.code ∧ w.extractLsb' 20 4 = src.code)

/-- R116: GET_FLAGS. -/
def Obligations.GetFlagsAnswersTheFlagByte : Prop :=
  (∀ s : State, (s.rf.slot 0).extractLsb' 0 4 = 0x0#4 → exec .getFlags s =
    .next { s with response := some (responseWord .ok (zext16 (s.rf.slot 0))) }) ∧
  (∀ s : State, (s.rf.slot 0).extractLsb' 0 4 ≠ 0x0#4 → exec .getFlags s =
    .next { s with response := some (responseWord (.error .invalidFlagState) 0x0000#16),
                   faults := .invalidFlagState :: s.faults }) ∧
  (∀ w : CmdWord, decode w = .ok .getFlags ↔ w = 0x60000000#32)

/-- R117: SET_FLAGS. -/
def Obligations.SetFlagsWritesTheWholeOfF : Prop :=
  ∀ (b : Byte),
    (∀ s : State, b.extractLsb' 0 4 = 0x0#4 → exec (.setFlags b) s =
      .next { s with rf := s.rf.setSlot 0 b, response := some (responseWord .ok 0x0000#16) }) ∧
    (∀ s : State, b.extractLsb' 0 4 ≠ 0x0#4 → exec (.setFlags b) s =
      .next { s with response := some (responseWord (.error .invalidFlagState) 0x0000#16),
                     faults := .invalidFlagState :: s.faults }) ∧
    (∀ w : CmdWord, decode w = .ok (.setFlags b) ↔ w &&& 0xFFFFFF00#32 = 0x70000000#32 ∧ w.extractLsb' 0 8 = b)

/-- R30: a flag set as a byte has Z, N, H and C at bits 7, 6, 5 and 4 and zero below, as the OR of the members' masks. -/
def Obligations.FlagSetAsAByte : Prop :=
  (flagMask .z = 0x80#8 ∧ flagMask .n = 0x40#8 ∧ flagMask .h = 0x20#8 ∧ flagMask .c = 0x10#8) ∧
  ∀ z n h c : Bool, (StatusFlags.toByte ⟨z, n, h, c⟩) =
    ((if z then 0x80#8 else 0x00#8) ||| (if n then 0x40#8 else 0x00#8) ||| (if h then 0x20#8 else 0x00#8) |||
      (if c then 0x10#8 else 0x00#8)) ∧
    (StatusFlags.toByte ⟨z, n, h, c⟩).getLsbD 7 = z ∧ (StatusFlags.toByte ⟨z, n, h, c⟩).getLsbD 6 = n ∧
    (StatusFlags.toByte ⟨z, n, h, c⟩).getLsbD 5 = h ∧ (StatusFlags.toByte ⟨z, n, h, c⟩).getLsbD 4 = c ∧
    (StatusFlags.toByte ⟨z, n, h, c⟩).extractLsb' 0 4 = 0x0#4

/-- R31: F may hold any 8-bit value. WRITE_WORD F, WRITE_DWORD AF, a copy to F or AF and INIT_REGS store it unmasked, GET_FLAGS fails
on a non-zero low nibble, and SET_FLAGS leaves the low nibble zero. -/
def Obligations.FMayHoldAnyByte : Prop :=
  (∀ (b : Byte) (s : State), ∃ t, exec (.writeWord .f b) s = .next t ∧ t.rf.slot 0 = b) ∧
  (∀ (b : Byte) (s : State), ∃ v t, exec (.writeDword .af v) s = .next t ∧ t.rf.slot 0 = b) ∧
  (∀ (r : Reg) (s : State), r.size = 1 → ∃ t, exec (.copyRegister .f r) s = .next t ∧ t.rf.slot 0 = s.rf.slot r.off) ∧
  (∀ (r : Reg) (s : State), r.size = 2 → ∃ t, exec (.copyRegister .af r) s = .next t ∧ t.rf.slot 0 = s.rf.slot r.off) ∧
  (∀ b : Byte, ∃ c s, construct c = some s ∧ s.rf.slot 0 = b) ∧
  (∀ s : State, (s.rf.slot 0).extractLsb' 0 4 ≠ 0x0#4 → ∃ t, exec .getFlags s = .next t ∧
    t.response = some (responseWord (.error .invalidFlagState) 0x0000#16) ∧ t.rf = s.rf) ∧
  (∀ (b : Byte) (s t : State), exec (.setFlags b) s = .next t → t.response = some (responseWord .ok 0x0000#16) →
    (t.rf.slot 0).extractLsb' 0 4 = 0x0#4)

/-- The round trips of 40_register_file.md, laws of the family (an inference of the spec, R118), under both byte orders and from every
state. -/
def Obligations.RegisterRoundTrips : Prop :=
  (∀ (r : Reg) (v : Dword) (s : State), r.size = 2 → ∃ t u, exec (.writeDword r v) s = .next t ∧
    exec (.readDword r) t = .next u ∧ u.response = some (responseWord .ok v)) ∧
  (∀ (r : Reg) (v : Byte) (s : State), r.size = 1 → ∃ t u, exec (.writeWord r v) s = .next t ∧
    exec (.readWord r) t = .next u ∧ u.response = some (responseWord .ok (zext16 v))) ∧
  (∀ (f : StatusFlags) (s : State), ∃ t u, exec (.setFlags f.toByte) s = .next t ∧
    exec .getFlags t = .next u ∧ u.response = some (responseWord .ok (zext16 f.toByte)) ∧
    (t.rf.slot 0).extractLsb' 0 4 = 0x0#4)

/-- 40_register_file.md, laws of the family (an inference of the spec, R119): a copy gives the same store under both byte orders, and
keeps the 16-bit value. -/
def Obligations.CopyDoesNotDependOnEndianness : Prop :=
  ∀ (dst src : Reg) (s : State) (e : Endian), dst.size = src.size → ∃ t t',
    exec (.copyRegister dst src) s = .next t ∧
    exec (.copyRegister dst src) { s with config := { s.config with targetEndian := e } } = .next t' ∧
    t'.rf = t.rf ∧ t'.response = t.response ∧
    (dst.size = 2 → ∃ u u', exec (.readDword src) s = .next u ∧ exec (.readDword dst) t = .next u' ∧
      u'.response = u.response)

/-- R121: a size-class mismatch always fails with SizeMismatch and writes nothing. -/
def Obligations.SizeMismatchIsNeverCoerced : Prop :=
  ∀ (i : Instr) (s : State),
    (match i with
      | .readWord r | .writeWord r _ => r.size = 2
      | .readDword r | .writeDword r _ => r.size = 1
      | .copyRegister dst src => dst.size ≠ src.size
      | .getFlags | .setFlags _ | .readByte _ | .writeByte _ _ => False) →
    exec i s = .next { s with response := some (responseWord (.error .sizeMismatch) 0x0000#16),
                              faults := .sizeMismatch :: s.faults }

/-- 40_register_file.md, laws of the family (the write footprint, an inference of the spec, R122), for all nine commands: every byte of
the register store outside the command's footprint, every byte of memory outside the location a WRITE_BYTE stores to, the
configuration and the inputs are unchanged; only WRITE_BYTE changes the memory map at all; a command that fails, an access in the gap
among them, changes no register byte and nothing of the memory map. -/
def Obligations.WriteFootprintOfEveryCommand : Prop :=
  ∀ (i : Instr) (s t : State), exec i s = .next t →
    (∀ j : Fin 12, j ∉ writtenSlots i → t.rf.slot j = s.rf.slot j) ∧
    (∀ a : Addr, (∀ b v, i = .writeByte b v → locate a ≠ locate b) → memRead t.mm a = memRead s.mm a) ∧
    ((∀ b v, i ≠ .writeByte b v) → t.mm = s.mm) ∧
    (commandError s i ≠ none → (∀ j : Fin 12, t.rf.slot j = s.rf.slot j) ∧ t.mm = s.mm) ∧
    (isRegisterFileCommand i = false → t.rf = s.rf) ∧
    t.config = s.config ∧ t.inputs = s.inputs

/-! ### The memory-map commands -/

/-- R150: the dispatch range by range, every offset inside its buffer, and the two accesses through it. -/
def Obligations.AddressDispatch : Prop :=
  (∀ a : Addr,
    (a.toNat = 0xFFFF → locate a = some .ie) ∧
    (a.toNat ≤ 0x7FFF → locate a = some (.byte .rom (a.toNat - 0x0000))) ∧
    (0x8000 ≤ a.toNat → a.toNat ≤ 0x9FFF → locate a = some (.byte .vram (a.toNat - 0x8000))) ∧
    (0xA000 ≤ a.toNat → a.toNat ≤ 0xBFFF → locate a = some (.byte .extram (a.toNat - 0xA000))) ∧
    (0xC000 ≤ a.toNat → a.toNat ≤ 0xDFFF → locate a = some (.byte .wram (a.toNat - 0xC000))) ∧
    (0xFE00 ≤ a.toNat → a.toNat ≤ 0xFE9F → locate a = some (.byte .oam (a.toNat - 0xFE00))) ∧
    (0xFF00 ≤ a.toNat → a.toNat ≤ 0xFF7F → locate a = some (.byte .io (a.toNat - 0xFF00))) ∧
    (0xFF80 ≤ a.toNat → a.toNat ≤ 0xFFFE → locate a = some (.byte .hram (a.toNat - 0xFF80))) ∧
    (0xE000 ≤ a.toNat → a.toNat ≤ 0xFDFF → locate a = some (.byte .wram (a.toNat - 0xE000))) ∧
    (0xFEA0 ≤ a.toNat → a.toNat ≤ 0xFEFF → locate a = none)) ∧
  (∀ (a : Addr) (seg : Segment) (k : Nat), locate a = some (.byte seg k) → k < segmentSize seg) ∧
  (∀ (mm : MemoryMap) (a : Addr), locate a = none → memRead mm a = none ∧ ∀ v, memWrite mm a v = none) ∧
  (∀ (mm : MemoryMap) (a : Addr), locate a = some .ie →
    memRead mm a = some mm.ie ∧ ∀ v, memWrite mm a v = some { mm with ie := v }) ∧
  (∀ (mm : MemoryMap) (a : Addr) (seg : Segment) (k : Nat), locate a = some (.byte seg k) →
    memRead mm a = some ((mm.buffer seg).read k) ∧
    ∀ v, memWrite mm a v = some (mm.setBuffer seg ((mm.buffer seg).write k v)))

/-- R151: READ_BYTE, with its echo corner case. -/
def Obligations.ReadByteAnswersTheStoredByte : Prop :=
  ∀ (a : Addr),
    (∀ s : State, ¬ inGap a → ∃ b, memRead s.mm a = some b ∧
      exec (.readByte a) s = .next { s with response := some (responseWord .ok (zext16 b)) }) ∧
    (∀ s : State, inGap a → exec (.readByte a) s =
      .next { s with response := some (responseWord (.error .unmappedAddress) 0x0000#16),
                     faults := .unmappedAddress :: s.faults }) ∧
    (∀ s : State, 0xE000 ≤ a.toNat → a.toNat ≤ 0xFDFF → exec (.readByte a) s = exec (.readByte (a - 0x2000#16)) s) ∧
    (∀ w : CmdWord, decode w = .ok (.readByte a) ↔ w &&& 0xFF0000FF#32 = 0x80000000#32 ∧ w.extractLsb' 8 16 = a)

/-- R152: WRITE_BYTE, with its echo corner case. -/
def Obligations.WriteByteStoresTheByte : Prop :=
  ∀ (a : Addr) (b : Byte),
    (∀ s : State, ¬ inGap a → ∃ mm, memWrite s.mm a b = some mm ∧
      exec (.writeByte a b) s = .next { s with mm := mm, response := some (responseWord .ok 0x0000#16) }) ∧
    (∀ s : State, inGap a → exec (.writeByte a b) s =
      .next { s with response := some (responseWord (.error .unmappedAddress) 0x0000#16),
                     faults := .unmappedAddress :: s.faults }) ∧
    (∀ s : State, 0xE000 ≤ a.toNat → a.toNat ≤ 0xFDFF →
      exec (.writeByte a b) s = exec (.writeByte (a - 0x2000#16) b) s) ∧
    (∀ w : CmdWord, decode w = .ok (.writeByte a b) ↔
      w &&& 0xFF000000#32 = 0x90000000#32 ∧ w.extractLsb' 8 16 = a ∧ w.extractLsb' 0 8 = b)

/-- R64: both commands fail in the gap, from every state, and change nothing. -/
def Obligations.GapAccessFails : Prop :=
  ∀ (a : Addr) (v : Byte) (s : State), inGap a → ∀ i ∈ [Instr.readByte a, .writeByte a v],
    exec i s = .next { s with response := some (responseWord (.error .unmappedAddress) 0x0000#16),
                              faults := .unmappedAddress :: s.faults }

/-- R62: every mapped address can be written and read back, and a write to 0x0000–0x7FFF changes the ROM buffer. -/
def Obligations.EveryMappedAddressIsWritable : Prop :=
  ∀ (a : Addr) (v : Byte) (s : State), s.mm.wf = true → ¬ inGap a →
    ∃ t u, exec (.writeByte a v) s = .next t ∧ t.response = some (responseWord .ok 0x0000#16) ∧
      exec (.readByte a) t = .next u ∧ u.response = some (responseWord .ok (zext16 v)) ∧
      (a.toNat ≤ 0x7FFF → t.mm.rom.read a.toNat = v)

/-- The frame of WRITE_BYTE (41_memory_map.md, laws of the family, item 2): every address whose location is not the one stored to reads
as before, in the gap nothing is stored, and the register file is untouched. -/
def Obligations.WriteByteFrame : Prop :=
  ∀ (a : Addr) (v : Byte) (s t : State), exec (.writeByte a v) s = .next t →
    (∀ b : Addr, locate b ≠ locate a → memRead t.mm b = memRead s.mm b) ∧
    (locate a = none → t.mm = s.mm) ∧
    t.rf = s.rf ∧ t.config = s.config ∧ t.inputs = s.inputs

/-- R63's redirect, and 20_memory.md, section 3 (the echo's extent, an inference of the spec): an echo address reaches WRAM byte
`a - 0xE000`, the location of `a - 0x2000`; 0xDE00–0xDFFF has no alias; a write through either address is seen through the other. -/
def Obligations.EchoMirrorsInternalRam : Prop :=
  ∀ a : Addr,
    (0xE000 ≤ a.toNat → a.toNat ≤ 0xFDFF →
      locate a = some (.byte .wram (a.toNat - 0xE000)) ∧ locate (a - 0x2000#16) = locate a) ∧
    (0xE000 ≤ a.toNat → a.toNat ≤ 0xFDFF → ∀ (v : Byte) (s : State), s.mm.wf = true →
      ∃ t t' u u', exec (.writeByte a v) s = .next t ∧ exec (.readByte (a - 0x2000#16)) t = .next u ∧
        u.response = some (responseWord .ok (zext16 v)) ∧
        exec (.writeByte (a - 0x2000#16) v) s = .next t' ∧ exec (.readByte a) t' = .next u' ∧
        u'.response = some (responseWord .ok (zext16 v))) ∧
    (0xDE00 ≤ a.toNat → a.toNat ≤ 0xDFFF → ∀ b : Addr, locate b = locate a → b = a)

/-- R35: the interrupt-enable byte at 0xFFFF is plain storage of 8 bits, separate from high RAM. -/
def Obligations.InterruptEnableByteIsPlainStorage : Prop :=
  ∀ (v : Byte) (s : State),
    exec (.writeByte 0xFFFF#16 v) s =
      .next { s with mm := { s.mm with ie := v }, response := some (responseWord .ok 0x0000#16) } ∧
    exec (.readByte 0xFFFF#16) s = .next { s with response := some (responseWord .ok (zext16 s.mm.ie)) } ∧
    ∀ t, exec (.writeByte 0xFFFF#16 v) s = .next t → t.mm.hram = s.mm.hram ∧ memRead t.mm 0xFFFE#16 = memRead s.mm 0xFFFE#16

/-- 20_memory.md, section 5 (R67, for memory): commands run one after another all complete, and then each mapped address reads as the
last byte written to its location, or as it did before them where none was. -/
def Obligations.MemoryReadsTheLastWrite : Prop :=
  ∀ (cs : List Instr) (s : State), s.mm.wf = true → ∃ t, runCommands cs s = .next t ∧
    ∀ (a : Addr) (loc : Location), locate a = some loc →
      memRead t.mm a = some ((lastWritten loc cs).getD (s.mm.load loc))

/-! ### Errors and responses -/

/-- R171, R172, R173: which command raises which error, and that no other one raises it. -/
def Obligations.EachErrorIsRaisedExactlyWhenItsRuleSays : Prop :=
  ∀ (i : Instr) (s : State), ∃ t rsp, exec i s = .next t ∧ t.response = some rsp ∧
    (rspStatus rsp = 1#3 ↔
      match i with
      | .readWord r | .writeWord r _ => r.size = 2
      | .readDword r | .writeDword r _ => r.size = 1
      | .copyRegister dst src => dst.size ≠ src.size
      | .getFlags | .setFlags _ | .readByte _ | .writeByte _ _ => False) ∧
    (rspStatus rsp = 2#3 ↔
      match i with
      | .getFlags => (s.rf.slot 0).extractLsb' 0 4 ≠ 0x0#4
      | .setFlags b => b.extractLsb' 0 4 ≠ 0x0#4
      | .readWord _ | .writeWord _ _ | .readDword _ | .writeDword _ _ | .copyRegister _ _ | .readByte _
      | .writeByte _ _ => False) ∧
    (rspStatus rsp = 3#3 ↔
      match i with
      | .readByte a | .writeByte a _ => 0xFEA0 ≤ a.toNat ∧ a.toNat ≤ 0xFEFF
      | .readWord _ | .writeWord _ _ | .readDword _ | .writeDword _ _ | .copyRegister _ _ | .getFlags
      | .setFlags _ => False)

/-- R90, R91: the response of every command word, illegal ones included. -/
def Obligations.ResponseOfEveryCommandWord : Prop :=
  ∀ (s : State) (w : CmdWord) (rest : List PortInput), s.inputs = .command w :: rest →
    ∃ t rsp, step s = .next t ∧ t.response = some rsp ∧ rsp.extractLsb' 19 13 = 0#13 ∧
      (match decode w with
        | .error _ => rsp.extractLsb' 16 3 = 4#3 ∧ rsp.extractLsb' 0 16 = 0x0000#16
        | .ok i =>
          match commandError s i with
          | some .sizeMismatch => rsp.extractLsb' 16 3 = 1#3 ∧ rsp.extractLsb' 0 16 = 0x0000#16
          | some .invalidFlagState => rsp.extractLsb' 16 3 = 2#3 ∧ rsp.extractLsb' 0 16 = 0x0000#16
          | some .unmappedAddress => rsp.extractLsb' 16 3 = 3#3 ∧ rsp.extractLsb' 0 16 = 0x0000#16
          | some .illegalCommand => False
          | none => rsp.extractLsb' 16 3 = 0#3 ∧ rsp.extractLsb' 0 16 = resultData s i)

/-- R176: a command that raises any error, an illegal word included, changes no register byte, no buffer byte and not IE. -/
def Obligations.FailingCommandChangesNoState : Prop :=
  ∀ (s t : State) (w : CmdWord) (rest : List PortInput) (rsp : RspWord), s.inputs = .command w :: rest →
    step s = .next t → t.response = some rsp → rspStatus rsp ≠ 0#3 →
    (∀ j : Fin 12, t.rf.slot j = s.rf.slot j) ∧ (∀ seg, t.mm.buffer seg = s.mm.buffer seg) ∧ t.mm.ie = s.mm.ie ∧
      t.config = s.config

/-- 60_exceptions.md, sections 1 and 4: after an error the next command answers, and leaves the CORE, exactly as if the failing command
had never been presented. -/
def Obligations.CoreGoesOnAfterAnError : Prop :=
  ∀ (s t : State) (w w' : CmdWord) (rest : List PortInput) (rsp : RspWord),
    s.inputs = .command w :: .command w' :: rest → step s = .next t → t.response = some rsp → rspStatus rsp ≠ 0#3 →
    ∃ u u', step t = .next u ∧ step { s with inputs := .command w' :: rest } = .next u' ∧
      u.rf = u'.rf ∧ u.mm = u'.mm ∧ u.response = u'.response ∧ u.inputs = u'.inputs

/-- The model's record of errors (log 2), which 60_exceptions.md, section 1, asks a model to keep: no step removes an entry, and a step
adds one exactly when its response reports an error, namely that error. -/
def Obligations.FaultRecordIsNeverCleared : Prop :=
  ∀ s t : State, step s = .next t →
    (t.faults = s.faults ∧ (∀ rsp, t.response = some rsp → rspStatus rsp = 0#3)) ∨
    (∃ e rsp, t.faults = e :: s.faults ∧ t.response = some rsp ∧ rspStatus rsp = (Status.error e).code ∧
      rspStatus rsp ≠ 0#3)

/-- 60_exceptions.md, sections 5 and 6: every command is allowed at all times and completes with a response; no command stops the
machine. -/
def Obligations.EveryCommandCompletes : Prop :=
  ∀ (i : Instr) (s : State), ∃ t rsp, exec i s = .next t ∧ t.response = some rsp ∧
    (rspStatus rsp = 0#3 ↔ commandError s i = none)

/-! ### Whole-machine rules -/

/-- R59: a read returns the stored byte or bytes and changes no state, a write changes only the bytes it names, every access is
idempotent, and a mapped byte reads as the byte last written to it or, until then, as the initial contents. The premise is the
canonical form of the buffers, which every step keeps. -/
def Obligations.AccessesHaveNoSideEffectAndAreIdempotent : Prop :=
  (∀ (i : Instr) (s t : State), (∀ r b, i ≠ .writeWord r b) → (∀ r v, i ≠ .writeDword r v) →
    (∀ dst src, i ≠ .copyRegister dst src) → (∀ b, i ≠ .setFlags b) → (∀ a b, i ≠ .writeByte a b) → exec i s = .next t →
    t.rf = s.rf ∧ t.mm = s.mm ∧ t.config = s.config) ∧
  (∀ (i : Instr) (s t : State), exec i s = .next t →
    (∀ j : Fin 12, j ∉ writtenSlots i → t.rf.slot j = s.rf.slot j) ∧
    (∀ a : Addr, (∀ b v, i = .writeByte b v → locate a ≠ locate b) → memRead t.mm a = memRead s.mm a)) ∧
  (∀ (i : Instr) (s t : State), s.mm.wf = true → exec i s = .next t →
    ∃ u, exec i t = .next u ∧ u.rf = t.rf ∧ u.mm = t.mm ∧ u.response = t.response) ∧
  (∀ (a : Addr) (b : Byte) (s : State), memRead s.mm a = some b →
    ∃ t, exec (.readByte a) s = .next t ∧ t.response = some (responseWord .ok (zext16 b))) ∧
  (∀ (r : Reg) (s : State), ∃ t u, exec (.readWord r) s = .next t ∧ exec (.readDword r) s = .next u ∧
    (r.size = 1 → t.response = some (responseWord .ok (zext16 (s.rf.slot r.off)))) ∧
    (r.size = 2 → u.response =
      some (responseWord .ok (combine s.config.targetEndian (s.rf.slot r.off) (s.rf.slot (r.off + 1)))))) ∧
  (∀ (a : Addr) (v : Byte) (s : State), s.mm.wf = true → ¬ inGap a →
    ∃ t, exec (.writeByte a v) s = .next t ∧ memRead t.mm a = some v) ∧
  (∀ (c : Config) (s : State) (a : Addr), construct c = some s →
    memRead s.mm a = (locate a).map fun loc =>
      match loc with
      | .ie => c.initIe
      | .byte seg k => resetByte c seg k)

/-- R41: the two components share no state. A register-file command neither reads nor writes the memory map, and a memory-map command
neither reads nor writes the register store (nor TARGET_ENDIAN: 41_memory_map.md, laws of the family, item 5). -/
def Obligations.ComponentsShareNoState : Prop :=
  ∀ (i : Instr) (s s' : State), ∃ t t', exec i s = .next t ∧ exec i s' = .next t' ∧
    (isRegisterFileCommand i = true → t.mm = s.mm ∧
      (s.rf = s'.rf → s.config = s'.config → t.rf = t'.rf ∧ t.response = t'.response)) ∧
    (isRegisterFileCommand i = false → t.rf = s.rf ∧
      (s.mm = s'.mm → t.mm = t'.mm ∧ t.response = t'.response))

/-- 70_reset_and_hazards.md, section 3 (an inference of the spec, R206): a register-file command and a memory-map command may be
swapped; both responses and the final state of the CORE stay the same. -/
def Obligations.ComponentsCommute : Prop :=
  ∀ (i j : Instr) (s : State), isRegisterFileCommand i = true → isRegisterFileCommand j = false →
    ∃ si sij sj sji, exec i s = .next si ∧ exec j si = .next sij ∧ exec j s = .next sj ∧ exec i sj = .next sji ∧
      sij.rf = sji.rf ∧ sij.mm = sji.mm ∧ si.response = sji.response ∧ sij.response = sj.response

/-- 20_memory.md, section 1 (TARGET_ENDIAN is fixed for the life of an instance), and the images with it: no step changes the
configuration. -/
def Obligations.ConfigurationIsStatic : Prop :=
  ∀ s t : State, step s = .next t → t.config = s.config

/-- 10_state.md, section 1 (PC and SP): a step that changes a byte of PC runs WRITE_DWORD PC or COPY_REGISTER PC, src, or applies a
reset of the register file; the same of SP. -/
def Obligations.PcAndSpChangeOnlyWhenNamed : Prop :=
  ∀ (r : Reg) (s t : State), (r = .pc ∨ r = .sp) → step s = .next t →
    (t.rf.slot r.off ≠ s.rf.slot r.off ∨ t.rf.slot (r.off + 1) ≠ s.rf.slot (r.off + 1)) →
    (∃ w rest, s.inputs = .command w :: rest ∧
      ((∃ v, decode w = .ok (.writeDword r v)) ∨ ∃ src, decode w = .ok (.copyRegister r src))) ∨
    (∃ scope rest, s.inputs = .reset scope :: rest ∧ scope ≠ .memoryMap)

/-- 10_state.md, section 2 (the writers of F, an inference of the spec, R32): a step that changes F runs SET_FLAGS, WRITE_WORD F,
WRITE_DWORD AF or a copy to F or AF, or applies a reset of the register file. -/
def Obligations.FlagByteChangesOnlyByItsWriters : Prop :=
  ∀ s t : State, step s = .next t → t.rf.slot 0 ≠ s.rf.slot 0 →
    (∃ w rest i, s.inputs = .command w :: rest ∧ decode w = .ok i ∧
      ((∃ b, i = .setFlags b) ∨ (∃ b, i = .writeWord .f b) ∨ (∃ v, i = .writeDword .af v) ∨
        (∃ src, i = .copyRegister .f src) ∨ ∃ src, i = .copyRegister .af src)) ∨
    (∃ scope rest, s.inputs = .reset scope :: rest ∧ scope ≠ .memoryMap)

/-! ### The step -/

/-- A step runs the decoded command: with a legal word presented next, the step is `exec` of its command, the word taken from the port
(00_scope.md, section 2; the list of inputs is the model's, log 3). -/
def Obligations.StepRunsTheDecodedCommand : Prop :=
  ∀ (s : State) (w : CmdWord) (rest : List PortInput) (i : Instr), s.inputs = .command w :: rest → decode w = .ok i →
    step s = exec i { s with inputs := rest }

/-- The host's two entries agree: presented through `withFetchWord`, the instruction that `decodeTableWord` reads is the one the step
runs, with everything else as it was (the model's own, log 3). -/
def Obligations.PresentedTableWordRuns : Prop :=
  ∀ (s : State) (w : Nat) (i : Instr), decodeTableWord 32 w = some i → step (s.withFetchWord 32 w) = exec i s

/-- With nothing presented a step changes nothing and answers nothing: the model's choice, DEDUCED (log 4). -/
def Obligations.StepWithNothingPresentedIdles : Prop :=
  ∀ s : State, s.inputs = [] → step s = .next { s with response := none }

/-- The invariant holds in every state a step leads to from a state where it holds: the configuration stays legal, every buffer keeps
its canonical form within its size, and the response stays one 30_encoding.md allows. -/
def Obligations.StepKeepsTheInvariant : Prop :=
  ∀ s t : State, s.Inv → step s = .next t → t.Inv

/-- The invariant holds after the reset of every instance, whatever its legal configuration, and so at the default one (log 7). -/
def Obligations.ResetMeetsTheInvariant : Prop :=
  (∀ (c : Config) (s : State), construct c = some s → s.Inv) ∧ State.reset.Inv

/-- From a state that meets the invariant, every number of steps completes, whatever is presented, and leads to a state that meets it:
no command and no reset blocks or stops the CORE (60_exceptions.md, section 6). -/
def Obligations.RunsNeverStop : Prop :=
  ∀ (n : Nat) (s : State), s.Inv → ∃ t : State, Host.Core.run Sys2Proof.core n s = .next t ∧ t.Inv

/-- A buffer in canonical form is determined by what it reads as (the model's representation, log 8): the model's memory maps are equal
exactly when every address reads alike. -/
def Obligations.EqualReadsAreEqualMemories : Prop :=
  ∀ m n : MemoryMap, m.wf = true → n.wf = true → (∀ a : Addr, memRead m a = memRead n a) → m = n

/-! ### Reset -/

/-- R42, R43, R44: what every register byte, every buffer byte and IE hold after reset. -/
def Obligations.ResetLoadsTheConfiguration : Prop :=
  ∀ (c : Config) (s : State), construct c = some s →
    (∀ i : Fin 12, s.rf.slot i = resetSlot c i) ∧
    (∀ (seg : Segment) (k : Nat), k < segmentSize seg → (s.mm.buffer seg).read k = resetByte c seg k) ∧
    s.mm.ie = c.initIe ∧ s.config = c

/-- The default instance after reset (10_state.md, section 6): LITTLE, and every byte 0x00. -/
def Obligations.DefaultResetIsAllZero : Prop :=
  construct Config.default = some State.reset ∧ State.reset.config.targetEndian = .little ∧
    (∀ i : Fin 12, State.reset.rf.slot i = 0x00#8) ∧
    (∀ a : Addr, ¬ inGap a → memRead State.reset.mm a = some 0x00#8)

/-- R201: a configuration is refused exactly when a given image has not its exact size. TARGET_ENDIAN and INIT_IE are right by their
types. -/
def Obligations.IllegalConfigurationIsRefused : Prop :=
  ∀ c : Config, construct c = none ↔
    (∃ bytes, c.initRegs = some bytes ∧ bytes.length ≠ 12) ∨
    (∃ bytes, c.initRom = some bytes ∧ bytes.length ≠ 0x8000) ∨
    (∃ bytes, c.initVram = some bytes ∧ bytes.length ≠ 0x2000) ∨
    (∃ bytes, c.initExtram = some bytes ∧ bytes.length ≠ 0x2000) ∨
    (∃ bytes, c.initWram = some bytes ∧ bytes.length ≠ 0x2000) ∨
    (∃ bytes, c.initOam = some bytes ∧ bytes.length ≠ 0xA0) ∨
    (∃ bytes, c.initIo = some bytes ∧ bytes.length ≠ 0x80) ∨
    (∃ bytes, c.initHram = some bytes ∧ bytes.length ≠ 0x7F)

/-- 70_reset_and_hazards.md, section 1: a reset applied again loads the component in its scope as the first reset did and leaves the
other one alone. That it takes a step, answers nothing and keeps the record of errors is the model's choice (log 6). -/
def Obligations.ResetAgainReloadsItsComponent : Prop :=
  ∀ (c : Config) (s₀ s : State) (scope : ResetScope) (rest : List PortInput), construct c = some s₀ → s.config = c →
    s.inputs = .reset scope :: rest → ∃ t, step s = .next t ∧
      (scope = .registerFile → t.rf = s₀.rf ∧ t.mm = s.mm) ∧
      (scope = .memoryMap → t.rf = s.rf ∧ t.mm = s₀.mm) ∧
      (scope = .both → t.rf = s₀.rf ∧ t.mm = s₀.mm) ∧
      t.config = c ∧ t.inputs = rest ∧ t.response = none ∧ t.faults = s.faults

/-- A reset under a configuration that R201 refuses is refused by name, in a state no run from a construction reaches (log 6). -/
def Obligations.ResetWithIllegalConfigurationIsRefused : Prop :=
  ∀ (s : State) (scope : ResetScope) (rest : List PortInput), construct s.config = none → s.inputs = .reset scope :: rest →
    step s = .refused .invalidConfiguration

/-! ### The assembler -/

/-- 30_encoding.md, section 5: the assembler refuses a line exactly when a literal does not fit its field or a flag is named twice, and
never truncates: what it takes encodes the literals' own numbers. -/
def Obligations.AssemblerNeverTruncates : Prop :=
  (∀ (r : Reg) (n : Nat), (assemble (.writeWord r n) = none ↔ 0xff < n) ∧
    ∀ i, assemble (.writeWord r n) = some i → (dlField (encode i)).toNat = n ∧ raField (encode i) = r.code) ∧
  (∀ (r : Reg) (n : Nat), (assemble (.writeDword r n) = none ↔ 0xffff < n) ∧
    ∀ i, assemble (.writeDword r n) = some i → (imm16Field (encode i)).toNat = n ∧ raField (encode i) = r.code) ∧
  (∀ n : Nat, (assemble (.setFlags (.imm n)) = none ↔ 0xff < n) ∧
    ∀ i, assemble (.setFlags (.imm n)) = some i → (dlField (encode i)).toNat = n) ∧
  (∀ fs : List Flag, (assemble (.setFlags (.list fs)) = none ↔ ¬ fs.Nodup) ∧
    ∀ i, assemble (.setFlags (.list fs)) = some i → dlField (encode i) =
      StatusFlags.toByte ⟨decide (Flag.z ∈ fs), decide (Flag.n ∈ fs), decide (Flag.h ∈ fs), decide (Flag.c ∈ fs)⟩) ∧
  (∀ a : Nat, (assemble (.readByte a) = none ↔ 0xffff < a) ∧
    ∀ i, assemble (.readByte a) = some i → (addrField (encode i)).toNat = a) ∧
  (∀ a n : Nat, (assemble (.writeByte a n) = none ↔ 0xffff < a ∨ 0xff < n) ∧
    ∀ i, assemble (.writeByte a n) = some i →
      (addrField (encode i)).toNat = a ∧ (dataField (encode i)).toNat = n)

/-- Printing a command and assembling the text gives the command's word (30_encoding.md, section 5; 00_scope.md, section 4, the printing
convention). -/
def Obligations.AssemblingPrintedCommandGivesItsWord : Prop :=
  ∀ i : Instr, assembleLine (renderInstr i) = .ok (some (encode i))
end

