-- ==== Sys2Proof/Laws/Encoding.lean ====
section
/-! SUPPORT. Facts of the register codes and of the fields of the two word formats (30_encoding.md R81 to R86). -/

namespace Sys2Proof

/-! ### Register codes (R84) -/

@[simp] theorem Reg.ofCode_code (r : Reg) : Reg.ofCode r.code = some r := by cases r <;> rfl

theorem Reg.code_of_ofCode {c : BitVec 4} {r : Reg} (h : Reg.ofCode c = some r) : r.code = c := by
  revert r; revert c; decide

theorem Reg.ofCode_eq_some_iff {c : BitVec 4} {r : Reg} : Reg.ofCode c = some r ↔ r.code = c :=
  ⟨Reg.code_of_ofCode, fun h => h ▸ Reg.ofCode_code r⟩

/-- Every term of `Instr` is well formed: its types admit nothing else. -/
theorem Instr.wellFormed_all (i : Instr) : i.wellFormed = true := by cases i <;> simp [Instr.wellFormed]

/-! ### Two words are equal when they agree bit by bit -/

/-- A field of a word, bit by bit. -/
theorem extract_eq_of_bits {n : Nat} (w : CmdWord) (start : Nat) (v : BitVec n)
    (h : ∀ i, i < n → w.getLsbD (start + i) = v.getLsbD i) : w.extractLsb' start n = v := by
  apply BitVec.eq_of_getLsbD_eq
  intro i hi
  simp [hi, h i hi]

/-! ### The fields of a format R word (R81) -/

section FormatR
variable (op ra rb : BitVec 4) (dh dl : Byte)

/-- A format R word bit by bit. -/
theorem getLsbD_formatR (i : Nat) :
    (formatR op ra rb dh dl).getLsbD i =
      if i < 8 then dl.getLsbD i else if i < 16 then dh.getLsbD (i - 8) else if i < 20 then false
      else if i < 24 then rb.getLsbD (i - 20) else if i < 28 then ra.getLsbD (i - 24) else op.getLsbD (i - 28) := by
  refine (BitVec.getLsbD_append (x := op ++ ra ++ rb ++ 0#4 ++ dh) (y := dl) (i := i)).trans ?_
  simp only [BitVec.getLsbD_append, BitVec.getLsbD_zero]
  split_ifs <;> first | rfl | omega

@[simp] theorem opField_formatR : opField (formatR op ra rb dh dl) = op := by
  refine extract_eq_of_bits _ _ _ fun i hi => ?_
  interval_cases i <;> simp [getLsbD_formatR, -BitVec.getLsbD_eq_getElem]

@[simp] theorem raField_formatR : raField (formatR op ra rb dh dl) = ra := by
  refine extract_eq_of_bits _ _ _ fun i hi => ?_
  interval_cases i <;> simp [getLsbD_formatR, -BitVec.getLsbD_eq_getElem]

@[simp] theorem rbField_formatR : rbField (formatR op ra rb dh dl) = rb := by
  refine extract_eq_of_bits _ _ _ fun i hi => ?_
  interval_cases i <;> simp [getLsbD_formatR, -BitVec.getLsbD_eq_getElem]

@[simp] theorem z4Field_formatR : z4Field (formatR op ra rb dh dl) = 0#4 := by
  refine extract_eq_of_bits _ _ _ fun i hi => ?_
  interval_cases i <;> simp [getLsbD_formatR, -BitVec.getLsbD_eq_getElem]

@[simp] theorem dhField_formatR : dhField (formatR op ra rb dh dl) = dh := by
  refine extract_eq_of_bits _ _ _ fun i hi => ?_
  interval_cases i <;> simp [getLsbD_formatR, -BitVec.getLsbD_eq_getElem]

@[simp] theorem dlField_formatR : dlField (formatR op ra rb dh dl) = dl := by
  refine extract_eq_of_bits _ _ _ fun i hi => ?_
  interval_cases i <;> simp [getLsbD_formatR, -BitVec.getLsbD_eq_getElem]

@[simp] theorem imm16Field_formatR : imm16Field (formatR op ra rb dh dl) = dh ++ dl := by
  refine extract_eq_of_bits _ _ _ fun i hi => ?_
  rw [BitVec.getLsbD_append, getLsbD_formatR]
  split_ifs <;> first | rfl | omega | (congr 1; omega)

end FormatR

/-! ### The fields of a format M word (R82) -/

section FormatM
variable (op : BitVec 4) (addr : Addr) (data : Byte)

/-- A format M word bit by bit. -/
theorem getLsbD_formatM (i : Nat) :
    (formatM op addr data).getLsbD i =
      if i < 8 then data.getLsbD i else if i < 24 then addr.getLsbD (i - 8) else if i < 28 then false
      else op.getLsbD (i - 28) := by
  refine (BitVec.getLsbD_append (x := op ++ 0#4 ++ addr) (y := data) (i := i)).trans ?_
  simp only [BitVec.getLsbD_append, BitVec.getLsbD_zero]
  split_ifs <;> first | rfl | omega

@[simp] theorem opField_formatM : opField (formatM op addr data) = op := by
  refine extract_eq_of_bits _ _ _ fun i hi => ?_
  interval_cases i <;> simp [getLsbD_formatM, -BitVec.getLsbD_eq_getElem]

@[simp] theorem z4MField_formatM : z4MField (formatM op addr data) = 0#4 := by
  refine extract_eq_of_bits _ _ _ fun i hi => ?_
  interval_cases i <;> simp [getLsbD_formatM, -BitVec.getLsbD_eq_getElem]

@[simp] theorem addrField_formatM : addrField (formatM op addr data) = addr := by
  refine extract_eq_of_bits _ _ _ fun i hi => ?_
  interval_cases i <;> simp [getLsbD_formatM, -BitVec.getLsbD_eq_getElem]

@[simp] theorem dataField_formatM : dataField (formatM op addr data) = data := by
  refine extract_eq_of_bits _ _ _ fun i hi => ?_
  interval_cases i <;> simp [getLsbD_formatM, -BitVec.getLsbD_eq_getElem]

end FormatM

/-- The two bytes of a 16-bit value spell it. -/
@[simp] theorem bytes_append (v : Dword) : v.extractLsb' 8 8 ++ v.extractLsb' 0 8 = v := by
  apply BitVec.eq_of_getLsbD_eq
  intro i hi
  refine (BitVec.getLsbD_append (x := v.extractLsb' 8 8) (y := v.extractLsb' 0 8) (i := i)).trans ?_
  interval_cases i <;> simp

/-! ### A word is made of its fields -/

theorem formatR_of_fields (w : CmdWord) (h : z4Field w = 0#4) :
    formatR (opField w) (raField w) (rbField w) (dhField w) (dlField w) = w := by
  have z : ∀ i, (w.extractLsb' 16 4).getLsbD i = false := fun i => by
    rw [show w.extractLsb' 16 4 = 0#4 from h]; simp
  have z0 := z 0; have z1 := z 1; have z2 := z 2; have z3 := z 3
  simp at z0 z1 z2 z3
  apply BitVec.eq_of_getLsbD_eq
  intro i hi
  rw [getLsbD_formatR]
  interval_cases i <;> simp [opField, raField, rbField, dhField, dlField, z0, z1, z2, z3]

theorem formatM_of_fields (w : CmdWord) (h : z4MField w = 0#4) :
    formatM (opField w) (addrField w) (dataField w) = w := by
  have z : ∀ i, (w.extractLsb' 24 4).getLsbD i = false := fun i => by
    rw [show w.extractLsb' 24 4 = 0#4 from h]; simp
  have z0 := z 0; have z1 := z 1; have z2 := z 2; have z3 := z 3
  simp at z0 z1 z2 z3
  apply BitVec.eq_of_getLsbD_eq
  intro i hi
  rw [getLsbD_formatM]
  interval_cases i <;> simp [opField, addrField, dataField, z0, z1, z2, z3]

theorem imm16Field_eq (w : CmdWord) : imm16Field w = dhField w ++ dlField w := by
  apply BitVec.eq_of_getLsbD_eq
  intro i hi
  refine Eq.trans ?_ (BitVec.getLsbD_append (x := dhField w) (y := dlField w) (i := i)).symm
  interval_cases i <;> simp [imm16Field, dhField, dlField]

/-! ### Rejection -/

@[simp] theorem requireZero_eq_ok {z : Bool} {d : Except Illegal Instr} {i : Instr} :
    requireZero z d = .ok i ↔ z = true ∧ d = .ok i := by
  cases z <;> simp [requireZero]

@[simp] theorem withReg_code (r : Reg) (k : Reg → Except Illegal Instr) : withReg r.code k = k r := by
  simp [withReg]

theorem withReg_eq_ok {c : BitVec 4} {k : Reg → Except Illegal Instr} {i : Instr} :
    withReg c k = .ok i ↔ ∃ r, Reg.ofCode c = some r ∧ k r = .ok i := by
  unfold withReg
  cases h : Reg.ofCode c <;> simp

end Sys2Proof
end

