-- ==== Sys2Proof/Laws/Flags.lean ====
section
/-! SUPPORT. A byte and its flag set say the same (10_state.md R30). -/

namespace Sys2Proof.Machine

/-- The bytes that are a flag set are those with a zero low nibble, and the set's byte is the byte itself. -/
theorem StatusFlags.ofByte_spec (b : Byte) :
    (StatusFlags.ofByte b).map StatusFlags.toByte = if b.extractLsb' 0 4 = 0#4 then some b else none := by
  revert b; decide +kernel

theorem StatusFlags.ofByte_eq_none_iff (b : Byte) : StatusFlags.ofByte b = none ↔ b.extractLsb' 0 4 ≠ 0#4 := by
  have h := StatusFlags.ofByte_spec b
  cases hb : StatusFlags.ofByte b with
  | none => simp_all
  | some fs => split at h <;> simp_all

theorem StatusFlags.toByte_of_ofByte {b : Byte} {fs : StatusFlags} (h : StatusFlags.ofByte b = some fs) :
    fs.toByte = b ∧ b.extractLsb' 0 4 = 0#4 := by
  have hs := StatusFlags.ofByte_spec b
  split at hs <;> simp_all

/-- Every flag set comes back from its byte. -/
@[simp] theorem StatusFlags.ofByte_toByte (fs : StatusFlags) : StatusFlags.ofByte fs.toByte = some fs := by
  obtain ⟨z, n, h, c⟩ := fs
  cases z <;> cases n <;> cases h <;> cases c <;> rfl

end Sys2Proof.Machine
end

