-- ==== Sys2Proof/Laws/Memory.lean ====
section
/-! SUPPORT. One buffer reads back what was written and keeps its canonical form; the address dispatch; the memory map as a
whole (20_memory.md R60 to R64; 41_memory_map.md R150). -/

namespace Sys2Proof.Machine

/-! ### The canonical form -/

theorem Memory.wfFrom_cons {lo size k : Nat} {b : Byte} {rest : Memory} :
    Memory.wfFrom lo size ((k, b) :: rest) = true ↔
      lo ≤ k ∧ k < size ∧ b ≠ Memory.unlisted ∧ Memory.wfFrom (k + 1) size rest = true := by
  simp [Memory.wfFrom, and_assoc]

/-- A lower bound may be lowered. -/
theorem Memory.wfFrom_mono {lo lo' size : Nat} (h : lo' ≤ lo) {m : Memory} (hm : Memory.wfFrom lo size m = true) :
    Memory.wfFrom lo' size m = true := by
  cases m with
  | nil => rfl
  | cons c rest =>
    obtain ⟨k, b⟩ := c
    rw [Memory.wfFrom_cons] at hm ⊢
    exact ⟨h.trans hm.1, hm.2⟩

/-- Below its first cell a buffer reads as unlisted. -/
theorem Memory.read_below {lo size k : Nat} {m : Memory} (hm : Memory.wfFrom lo size m = true) (h : k < lo) :
    Memory.read m k = Memory.unlisted := by
  induction m generalizing lo with
  | nil => rfl
  | cons c rest ih =>
    obtain ⟨j, b⟩ := c
    obtain ⟨h1, -, -, h4⟩ := Memory.wfFrom_cons.mp hm
    have hne : j ≠ k := by omega
    simp only [Memory.read, hne, decide_false]
    exact ih h4 (by omega)

theorem Memory.cons_wfFrom {lo size k : Nat} {v : Byte} {rest : Memory} (h1 : lo ≤ k) (h2 : k < size)
    (hr : Memory.wfFrom (k + 1) size rest = true) : Memory.wfFrom lo size (Memory.cons k v rest) = true := by
  unfold Memory.cons
  split
  · exact Memory.wfFrom_mono (by omega) hr
  · next h => exact Memory.wfFrom_cons.mpr ⟨h1, h2, by simpa using h, hr⟩

theorem Memory.read_cons_self {size k : Nat} {v : Byte} {rest : Memory} (hr : Memory.wfFrom (k + 1) size rest = true) :
    Memory.read (Memory.cons k v rest) k = v := by
  unfold Memory.cons
  split
  · next h =>
    have : v = Memory.unlisted := by simpa using h
    rw [this]; exact Memory.read_below hr (by omega)
  · simp [Memory.read]

theorem Memory.read_cons_ne {k j : Nat} {v : Byte} {rest : Memory} (h : j ≠ k) :
    Memory.read (Memory.cons k v rest) j = Memory.read rest j := by
  unfold Memory.cons
  split
  · rfl
  · simp [Memory.read, Ne.symm h]

/-! ### Writing and reading one byte -/

theorem Memory.write_cases (j : Nat) (b : Byte) (rest : Memory) (k : Nat) (v : Byte) :
    Memory.write ((j, b) :: rest) k v =
      if j < k then (j, b) :: Memory.write rest k v
      else if j = k then Memory.cons k v rest else Memory.cons k v ((j, b) :: rest) := by
  rw [Memory.write]
  rcases lt_trichotomy j k with h | h | h
  · simp [compare_lt_iff_lt.mpr h, h]
  · simp [h]
  · simp [compare_gt_iff_gt.mpr h, show ¬ j < k by omega, show j ≠ k by omega]

theorem Memory.write_wfFrom {lo size k : Nat} {m : Memory} (v : Byte) (hm : Memory.wfFrom lo size m = true)
    (h1 : lo ≤ k) (h2 : k < size) : Memory.wfFrom lo size (Memory.write m k v) = true := by
  induction m generalizing lo with
  | nil => exact Memory.cons_wfFrom h1 h2 rfl
  | cons c rest ih =>
    obtain ⟨j, b⟩ := c
    obtain ⟨a1, a2, a3, a4⟩ := Memory.wfFrom_cons.mp hm
    rw [Memory.write_cases]
    split
    · next h => exact Memory.wfFrom_cons.mpr ⟨a1, a2, a3, ih a4 (by omega)⟩
    · split
      · next h => subst h; exact Memory.cons_wfFrom h1 h2 a4
      · exact Memory.cons_wfFrom h1 h2 (Memory.wfFrom_cons.mpr ⟨by omega, a2, a3, a4⟩)

/-- Every write keeps the canonical form. -/
theorem Memory.write_wf {size k : Nat} {m : Memory} (v : Byte) (hm : m.wf size = true) (h : k < size) :
    Memory.wf size (m.write k v) = true :=
  Memory.write_wfFrom v hm (Nat.zero_le k) h

theorem Memory.read_write_self_from {lo size k : Nat} {m : Memory} (v : Byte) (hm : Memory.wfFrom lo size m = true) :
    Memory.read (Memory.write m k v) k = v := by
  induction m generalizing lo with
  | nil => exact Memory.read_cons_self (size := size) rfl
  | cons c rest ih =>
    obtain ⟨j, b⟩ := c
    obtain ⟨a1, a2, a3, a4⟩ := Memory.wfFrom_cons.mp hm
    rw [Memory.write_cases]
    split
    · next h =>
      have hne : j ≠ k := by omega
      simpa [Memory.read, hne] using ih a4
    · split
      · next h => subst h; exact Memory.read_cons_self a4
      · exact Memory.read_cons_self (Memory.wfFrom_cons.mpr ⟨by omega, a2, a3, a4⟩)

/-- A read after a write to the same offset gives the byte written. -/
theorem Memory.read_write_self {size k : Nat} {m : Memory} (v : Byte) (hm : m.wf size = true) :
    Memory.read (m.write k v) k = v :=
  Memory.read_write_self_from v hm

/-- A write leaves every other offset alone. -/
theorem Memory.read_write_ne {k j : Nat} (m : Memory) (v : Byte) (h : j ≠ k) :
    Memory.read (m.write k v) j = Memory.read m j := by
  induction m with
  | nil => exact Memory.read_cons_ne h
  | cons c rest ih =>
    obtain ⟨i, b⟩ := c
    rw [Memory.write_cases]
    split
    · simp only [Memory.read]; split
      · rfl
      · exact ih
    · split
      · next e => subst e; rw [Memory.read_cons_ne h]; simp [Memory.read, Ne.symm h]
      · exact Memory.read_cons_ne h

/-- Two buffers in canonical form that read alike are the same list. -/
theorem Memory.ext_read_from {lo size : Nat} {m n : Memory} (hm : Memory.wfFrom lo size m = true)
    (hn : Memory.wfFrom lo size n = true) (h : ∀ k, lo ≤ k → Memory.read m k = Memory.read n k) : m = n := by
  induction m generalizing lo n with
  | nil =>
    cases n with
    | nil => rfl
    | cons c rest =>
      obtain ⟨k, b⟩ := c
      obtain ⟨h1, -, h3, -⟩ := Memory.wfFrom_cons.mp hn
      have := h k h1
      simp only [Memory.read, decide_true] at this
      exact absurd this.symm h3
  | cons c rest ih =>
    obtain ⟨k, b⟩ := c
    obtain ⟨a1, a2, a3, a4⟩ := Memory.wfFrom_cons.mp hm
    cases n with
    | nil =>
      have := h k a1
      simp only [Memory.read, decide_true] at this
      exact absurd this a3
    | cons d rest' =>
      obtain ⟨k', b'⟩ := d
      obtain ⟨c1, c2, c3, c4⟩ := Memory.wfFrom_cons.mp hn
      have hk : k = k' := by
        rcases lt_trichotomy k k' with hlt | heq | hgt
        · have e := h k a1
          rw [Memory.read_below (Memory.wfFrom_cons.mpr ⟨le_refl k', c2, c3, c4⟩) hlt] at e
          simp only [Memory.read, decide_true] at e
          exact absurd e a3
        · exact heq
        · have e := h k' c1
          rw [Memory.read_below (Memory.wfFrom_cons.mpr ⟨le_refl k, a2, a3, a4⟩) hgt] at e
          simp only [Memory.read, decide_true] at e
          exact absurd e.symm c3
      subst hk
      have hb : b = b' := by simpa [Memory.read] using h k a1
      subst hb
      congr 1
      refine ih a4 c4 fun j hj => ?_
      have e := h j (by omega)
      have hne : k ≠ j := by omega
      simpa [Memory.read, hne] using e

/-! ### Images -/

theorem Memory.ofBytes_wfFrom (size k : Nat) (bytes : List Byte) (h : k + bytes.length ≤ size) :
    Memory.wfFrom k size (Memory.ofBytes k bytes) = true := by
  induction bytes generalizing k with
  | nil => rfl
  | cons b bs ih =>
    simp only [List.length_cons] at h
    exact Memory.cons_wfFrom (le_refl k) (by omega) (ih (k + 1) (by omega))

/-- Byte by byte, a buffer loaded from an image holds the image. -/
theorem Memory.read_ofBytes (k j : Nat) (bytes : List Byte) :
    Memory.read (Memory.ofBytes k bytes) (k + j) = bytes.getD j Memory.unlisted := by
  induction bytes generalizing k j with
  | nil => rfl
  | cons b bs ih =>
    cases j with
    | zero =>
      rw [Memory.ofBytes]
      exact Memory.read_cons_self (Memory.ofBytes_wfFrom (k + 1 + bs.length) (k + 1) bs (le_refl _))
    | succ j =>
      rw [Memory.ofBytes, Memory.read_cons_ne (by omega), show k + (j + 1) = (k + 1) + j by omega, ih (k + 1) j]
      rfl

/-! ### The address dispatch (41_memory_map.md R150) -/

/-- The dispatch answers a location within its buffer, everywhere but in the gap. -/
theorem locate_cases (addr : Addr) :
    (0xFEA0 ≤ addr.toNat ∧ addr.toNat ≤ 0xFEFF ∧ locate addr = none) ∨
      (addr.toNat = 0xFFFF ∧ locate addr = some .ie) ∨
      ∃ seg k, locate addr = some (.byte seg k) ∧ k < segmentSize seg ∧
        (addr.toNat = segmentBase seg + k ∨ seg = .wram ∧ addr.toNat = 0xE000 + k ∧ k < 0x1E00) := by
  have hlt := addr.isLt
  unfold locate
  simp only
  split_ifs
  all_goals first
    | (right; left; exact ⟨by assumption, rfl⟩)
    | (left; exact ⟨by omega, by omega, rfl⟩)
    | (right; right; refine ⟨_, _, rfl, ?_, ?_⟩ <;> simp only [segmentSize, segmentBase] <;>
        first | omega | (right; exact ⟨trivial, by omega, by omega⟩))

/-- Only the gap has no location (20_memory.md R60, R64). -/
theorem locate_eq_none_iff (addr : Addr) : locate addr = none ↔ 0xFEA0 ≤ addr.toNat ∧ addr.toNat ≤ 0xFEFF := by
  constructor
  · intro h
    rcases locate_cases addr with ⟨h1, h2, -⟩ | ⟨-, h1⟩ | ⟨seg, k, h1, -⟩
    · exact ⟨h1, h2⟩
    · rw [h] at h1; cases h1
    · rw [h] at h1; cases h1
  · rintro ⟨h1, h2⟩
    rcases locate_cases addr with ⟨-, -, h⟩ | ⟨h3, -⟩ | ⟨seg, k, -, h3, h4⟩
    · exact h
    · omega
    · exfalso
      rcases h4 with h4 | ⟨-, h4, h5⟩
      · cases seg <;> simp only [segmentSize, segmentBase] at h3 h4 <;> omega
      · omega

/-- Every offset the dispatch computes is inside its buffer (R150). -/
theorem locate_offset_lt {addr : Addr} {seg : Segment} {k : Nat} (h : locate addr = some (.byte seg k)) :
    k < segmentSize seg := by
  rcases locate_cases addr with ⟨-, -, h'⟩ | ⟨-, h'⟩ | ⟨seg', k', h', hk, -⟩
  · rw [h] at h'; cases h'
  · rw [h] at h'; cases h'
  · rw [h] at h'; cases h'; exact hk

/-! ### The memory map -/

@[simp] theorem MemoryMap.buffer_setBuffer_self (mm : MemoryMap) (seg : Segment) (m : Memory) :
    (mm.setBuffer seg m).buffer seg = m := by cases seg <;> rfl

theorem MemoryMap.buffer_setBuffer_ne (mm : MemoryMap) {seg seg' : Segment} (m : Memory) (h : seg ≠ seg') :
    (mm.setBuffer seg m).buffer seg' = mm.buffer seg' := by
  cases seg <;> cases seg' <;> first | rfl | exact absurd rfl h

@[simp] theorem MemoryMap.ie_setBuffer (mm : MemoryMap) (seg : Segment) (m : Memory) :
    (mm.setBuffer seg m).ie = mm.ie := by cases seg <;> rfl

theorem MemoryMap.wf_iff (mm : MemoryMap) : mm.wf = true ↔ ∀ seg, (mm.buffer seg).wf (segmentSize seg) = true := by
  constructor
  · intro h seg
    simp only [MemoryMap.wf, Bool.and_eq_true] at h
    obtain ⟨⟨⟨⟨⟨⟨h1, h2⟩, h3⟩, h4⟩, h5⟩, h6⟩, h7⟩ := h
    cases seg <;> assumption
  · intro h
    simp only [MemoryMap.wf, Bool.and_eq_true]
    exact ⟨⟨⟨⟨⟨⟨h .rom, h .vram⟩, h .extram⟩, h .wram⟩, h .oam⟩, h .io⟩, h .hram⟩

/-- A location lies inside its buffer. -/
def Location.valid : Location → Prop
  | .ie => True
  | .byte seg k => k < segmentSize seg

theorem locate_valid {addr : Addr} {loc : Location} (h : locate addr = some loc) : loc.valid := by
  cases loc with
  | ie => trivial
  | byte seg k => exact locate_offset_lt h

/-- A store keeps every buffer's canonical form. -/
theorem MemoryMap.store_wf {mm : MemoryMap} (hm : mm.wf = true) {loc : Location} (hl : loc.valid) (v : Byte) :
    (mm.store loc v).wf = true := by
  cases loc with
  | ie => exact hm
  | byte seg k =>
    rw [MemoryMap.wf_iff] at hm ⊢
    intro seg'
    simp only [MemoryMap.store]
    by_cases h : seg = seg'
    · subst h; rw [MemoryMap.buffer_setBuffer_self]; exact Memory.write_wf v (hm seg) hl
    · rw [MemoryMap.buffer_setBuffer_ne _ _ h]; exact hm seg'

/-- A load after a store to the same location gives the byte stored. -/
theorem MemoryMap.load_store_self {mm : MemoryMap} (hm : mm.wf = true) (loc : Location) (v : Byte) :
    (mm.store loc v).load loc = v := by
  cases loc with
  | ie => rfl
  | byte seg k =>
    simp only [MemoryMap.store, MemoryMap.load, MemoryMap.buffer_setBuffer_self]
    exact Memory.read_write_self v ((MemoryMap.wf_iff mm).mp hm seg)

/-- A store leaves every other location alone. -/
theorem MemoryMap.load_store_ne (mm : MemoryMap) {loc loc' : Location} (v : Byte) (h : loc' ≠ loc) :
    (mm.store loc v).load loc' = mm.load loc' := by
  cases loc with
  | ie => cases loc' with
    | ie => exact absurd rfl h
    | byte seg k => cases seg <;> rfl
  | byte seg k => cases loc' with
    | ie => simp [MemoryMap.store, MemoryMap.load]
    | byte seg' k' =>
      simp only [MemoryMap.store, MemoryMap.load]
      by_cases hs : seg = seg'
      · subst hs
        rw [MemoryMap.buffer_setBuffer_self]
        exact Memory.read_write_ne _ v fun e => h (by rw [e])
      · rw [MemoryMap.buffer_setBuffer_ne _ _ hs]

end Sys2Proof.Machine
end

