-- ==== Sys2Proof/Laws/Operands.lean ====
section
/-! SUPPORT. What the register operands do: the layout of the store, reading after writing, and the byte order. -/

namespace Sys2Proof

/-! ### The layout (10_state.md R23 to R25) -/

theorem Reg.size_eq (r : Reg) : r.size = 1 ∨ r.size = 2 := by cases r <;> decide

theorem Reg.size_ne_one {r : Reg} : r.size ≠ 1 ↔ r.size = 2 := by cases r <;> decide

theorem Reg.size_ne_two {r : Reg} : r.size ≠ 2 ↔ r.size = 1 := by cases r <;> decide

/-- The two slots of a size-2 register are adjacent. -/
theorem Reg.offHigh_val {r : Reg} (h : r.size = 2) : r.offHigh.val = r.off.val + 1 := by
  revert h; cases r <;> decide

theorem Reg.offHigh_ne_off (r : Reg) : r.offHigh ≠ r.off := by cases r <;> decide

/-- Two distinct size-1 registers stand in distinct slots (10_state.md R25). -/
theorem Reg.off_ne_of_size_one {r q : Reg} (hr : r.size = 1) (hq : q.size = 1) (h : r ≠ q) : r.off ≠ q.off := by
  revert hr hq h; cases r <;> cases q <;> decide

/-- Two distinct size-2 registers share no slot (10_state.md R25). -/
theorem Reg.slots_disjoint_of_size_two {r q : Reg} (hr : r.size = 2) (hq : q.size = 2) (h : r ≠ q) :
    r.off ≠ q.off ∧ r.off ≠ q.offHigh ∧ r.offHigh ≠ q.off ∧ r.offHigh ≠ q.offHigh := by
  revert hr hq h; cases r <;> cases q <;> decide

namespace Machine

/-! ### Slots (00_scope.md R8) -/

@[simp] theorem RegisterFile.slot_setSlot_self (rf : RegisterFile) (i : Fin 12) (v : Byte) :
    (rf.setSlot i v).slot i = v := by
  simp [RegisterFile.slot, RegisterFile.setSlot, Vector.get_eq_getElem]

theorem RegisterFile.slot_setSlot_ne (rf : RegisterFile) {i j : Fin 12} (v : Byte) (h : i ≠ j) :
    (rf.setSlot i v).slot j = rf.slot j := by
  have : i.val ≠ j.val := fun e => h (Fin.ext e)
  simp [RegisterFile.slot, RegisterFile.setSlot, Vector.get_eq_getElem, Vector.getElem_set_ne, this]

theorem RegisterFile.slot_setSlot (rf : RegisterFile) (i j : Fin 12) (v : Byte) :
    (rf.setSlot i v).slot j = if i = j then v else rf.slot j := by
  split
  · next h => subst h; exact slot_setSlot_self rf i v
  · next h => exact slot_setSlot_ne rf v h

/-- Two stores are equal when every slot is. -/
theorem RegisterFile.ext_slot {rf rg : RegisterFile} (h : ∀ i, rf.slot i = rg.slot i) : rf = rg := by
  cases rf with | mk x =>
  cases rg with | mk y =>
  congr
  apply Vector.ext
  intro i hi
  simpa [RegisterFile.slot, Vector.get_eq_getElem] using h ⟨i, hi⟩

@[simp] theorem RegisterFile.setSlot_slot (rf : RegisterFile) (i : Fin 12) : rf.setSlot i (rf.slot i) = rf := by
  apply RegisterFile.ext_slot
  intro j
  rw [RegisterFile.slot_setSlot]
  split
  · next h => rw [h]
  · rfl

/-! ### Byte order (20_memory.md R50, R51) -/

/-- The bytes of `split` spell the value again. -/
@[simp] theorem combine_split (endian : Endian) (v : Dword) : combine endian (split endian v).1 (split endian v).2 = v := by
  have key : v.extractLsb' 8 8 ++ v.extractLsb' 0 8 = v := by
    apply BitVec.eq_of_getLsbD_eq
    intro i hi
    refine (BitVec.getLsbD_append (x := v.extractLsb' 8 8) (y := v.extractLsb' 0 8) (i := i)).trans ?_
    interval_cases i <;> simp
  cases endian <;> exact key

/-- `split` gives the bytes back that `combine` put together. -/
@[simp] theorem split_combine (endian : Endian) (lo hi : Byte) : split endian (combine endian lo hi) = (lo, hi) := by
  have high : ∀ a b : Byte, (a ++ b : Dword).extractLsb' 8 8 = a := by
    intro a b
    apply BitVec.eq_of_getLsbD_eq
    intro i h
    rw [BitVec.getLsbD_extractLsb', BitVec.getLsbD_append]
    simp [h]
  have low : ∀ a b : Byte, (a ++ b : Dword).extractLsb' 0 8 = b := by
    intro a b
    apply BitVec.eq_of_getLsbD_eq
    intro i h
    rw [BitVec.getLsbD_extractLsb', BitVec.getLsbD_append]
    simp [h]
  cases endian <;> simp only [combine, split, high, low]

/-! ### Reading after writing -/

@[simp] theorem RegisterFile.readWord_writeWord (rf : RegisterFile) (r : Reg) (v : Byte) :
    (rf.writeWord r v).readWord r = v := by
  simp [RegisterFile.readWord, RegisterFile.writeWord]

theorem RegisterFile.slot_writeDword (endian : Endian) (rf : RegisterFile) (r : Reg) (v : Dword) (j : Fin 12) :
    (rf.writeDword endian r v).slot j =
      if r.offHigh = j then (split endian v).2 else if r.off = j then (split endian v).1 else rf.slot j := by
  simp only [RegisterFile.writeDword, RegisterFile.slot_setSlot]

@[simp] theorem RegisterFile.readDword_writeDword (endian : Endian) (rf : RegisterFile) (r : Reg) (v : Dword) :
    (rf.writeDword endian r v).readDword endian r = v := by
  have h := r.offHigh_ne_off
  simp [RegisterFile.readDword, RegisterFile.slot_writeDword, h]

theorem RegisterFile.slot_copyDword (rf : RegisterFile) (dst src : Reg) (j : Fin 12) :
    (rf.copyDword dst src).slot j =
      if dst.offHigh = j then rf.slot src.offHigh else if dst.off = j then rf.slot src.off else rf.slot j := by
  simp only [RegisterFile.copyDword, RegisterFile.slot_setSlot]

/-- A 16-bit copy keeps the value under either byte order (40_register_file.md R115). -/
theorem RegisterFile.readDword_copyDword (endian : Endian) (rf : RegisterFile) (dst src : Reg) :
    (rf.copyDword dst src).readDword endian dst = rf.readDword endian src := by
  have h := dst.offHigh_ne_off
  simp [RegisterFile.readDword, RegisterFile.slot_copyDword, h]

end Machine

end Sys2Proof
end

