-- ==== Sys2Proof/Laws/State.lean ====
section
/-! SUPPORT. One lemma per field per update of State, so that no later proof unfolds a record update. -/

namespace Sys2Proof.Machine

@[simp] theorem State.setRf_config (s : State) (v : RegisterFile) : (s.setRf v).config = s.config := rfl

@[simp] theorem State.setRf_rf (s : State) (v : RegisterFile) : (s.setRf v).rf = v := rfl

@[simp] theorem State.setRf_mm (s : State) (v : RegisterFile) : (s.setRf v).mm = s.mm := rfl

@[simp] theorem State.setRf_inputs (s : State) (v : RegisterFile) : (s.setRf v).inputs = s.inputs := rfl

@[simp] theorem State.setRf_response (s : State) (v : RegisterFile) : (s.setRf v).response = s.response := rfl

@[simp] theorem State.setRf_faults (s : State) (v : RegisterFile) : (s.setRf v).faults = s.faults := rfl

@[simp] theorem State.setMm_config (s : State) (v : MemoryMap) : (s.setMm v).config = s.config := rfl

@[simp] theorem State.setMm_rf (s : State) (v : MemoryMap) : (s.setMm v).rf = s.rf := rfl

@[simp] theorem State.setMm_mm (s : State) (v : MemoryMap) : (s.setMm v).mm = v := rfl

@[simp] theorem State.setMm_inputs (s : State) (v : MemoryMap) : (s.setMm v).inputs = s.inputs := rfl

@[simp] theorem State.setMm_response (s : State) (v : MemoryMap) : (s.setMm v).response = s.response := rfl

@[simp] theorem State.setMm_faults (s : State) (v : MemoryMap) : (s.setMm v).faults = s.faults := rfl

@[simp] theorem State.setInputs_config (s : State) (v : List PortInput) : (s.setInputs v).config = s.config := rfl

@[simp] theorem State.setInputs_rf (s : State) (v : List PortInput) : (s.setInputs v).rf = s.rf := rfl

@[simp] theorem State.setInputs_mm (s : State) (v : List PortInput) : (s.setInputs v).mm = s.mm := rfl

@[simp] theorem State.setInputs_inputs (s : State) (v : List PortInput) : (s.setInputs v).inputs = v := rfl

@[simp] theorem State.setInputs_response (s : State) (v : List PortInput) : (s.setInputs v).response = s.response := rfl

@[simp] theorem State.setInputs_faults (s : State) (v : List PortInput) : (s.setInputs v).faults = s.faults := rfl

@[simp] theorem State.setResponse_config (s : State) (v : Option RspWord) : (s.setResponse v).config = s.config := rfl

@[simp] theorem State.setResponse_rf (s : State) (v : Option RspWord) : (s.setResponse v).rf = s.rf := rfl

@[simp] theorem State.setResponse_mm (s : State) (v : Option RspWord) : (s.setResponse v).mm = s.mm := rfl

@[simp] theorem State.setResponse_inputs (s : State) (v : Option RspWord) : (s.setResponse v).inputs = s.inputs := rfl

@[simp] theorem State.setResponse_response (s : State) (v : Option RspWord) : (s.setResponse v).response = v := rfl

@[simp] theorem State.setResponse_faults (s : State) (v : Option RspWord) : (s.setResponse v).faults = s.faults := rfl

@[simp] theorem State.recordFault_config (s : State) (v : CommandError) : (s.recordFault v).config = s.config := rfl

@[simp] theorem State.recordFault_rf (s : State) (v : CommandError) : (s.recordFault v).rf = s.rf := rfl

@[simp] theorem State.recordFault_mm (s : State) (v : CommandError) : (s.recordFault v).mm = s.mm := rfl

@[simp] theorem State.recordFault_inputs (s : State) (v : CommandError) : (s.recordFault v).inputs = s.inputs := rfl

@[simp] theorem State.recordFault_response (s : State) (v : CommandError) : (s.recordFault v).response = s.response := rfl

@[simp] theorem State.recordFault_faults (s : State) (v : CommandError) : (s.recordFault v).faults = v :: s.faults := rfl

end Sys2Proof.Machine
end

