-- ==== Sys2Proof/Laws/Exec.lean ====
section
/-! SUPPORT. What each ending of a command and each meaning can do, said once; the proofs cite these and never unfold a
meaning. -/

namespace Sys2Proof.Machine

/-! ### The response word (30_encoding.md R90) -/

theorem getLsbD_responseWord (st : Status) (d : Dword) (i : Nat) :
    (responseWord st d).getLsbD i =
      if i < 16 then d.getLsbD i else if i < 19 then st.code.getLsbD (i - 16) else false := by
  refine (BitVec.getLsbD_append (x := 0#13 ++ st.code) (y := d) (i := i)).trans ?_
  simp only [BitVec.getLsbD_append, BitVec.getLsbD_zero]
  split_ifs <;> first | rfl | omega

@[simp] theorem rspData_responseWord (st : Status) (d : Dword) : rspData (responseWord st d) = d := by
  apply BitVec.eq_of_getLsbD_eq
  intro i hi
  simp only [rspData, BitVec.getLsbD_extractLsb', hi, decide_true, Bool.true_and, getLsbD_responseWord]
  rw [if_pos (by omega), Nat.zero_add]

@[simp] theorem rspStatus_responseWord (st : Status) (d : Dword) : rspStatus (responseWord st d) = st.code := by
  apply BitVec.eq_of_getLsbD_eq
  intro i hi
  simp only [rspStatus, BitVec.getLsbD_extractLsb', hi, decide_true, Bool.true_and, getLsbD_responseWord]
  rw [if_neg (by omega), if_pos (by omega), Nat.add_sub_cancel_left]

@[simp] theorem rspZero_responseWord (st : Status) (d : Dword) : rspZero (responseWord st d) = 0#13 := by
  apply BitVec.eq_of_getLsbD_eq
  intro i hi
  simp only [rspZero, BitVec.getLsbD_extractLsb', hi, decide_true, Bool.true_and, getLsbD_responseWord,
    BitVec.getLsbD_zero]
  rw [if_neg (by omega), if_neg (by omega)]

/-! ### The two endings of a command -/

/-- A command that succeeds leaves its data in the response and nothing else of its own. -/
theorem succeed_next {d : Dword} {s t : State} (h : succeed d s = .next t) :
    t.config = s.config ∧ t.rf = s.rf ∧ t.mm = s.mm ∧ t.inputs = s.inputs ∧ t.faults = s.faults ∧
      t.response = some (responseWord .ok d) := by
  injection h with h; subst h; exact ⟨rfl, rfl, rfl, rfl, rfl, rfl⟩

/-- A command that raises an error changes no state of the CORE (60_exceptions.md R176). -/
theorem raise_next {e : CommandError} {s t : State} (h : raise e s = .next t) :
    t.config = s.config ∧ t.rf = s.rf ∧ t.mm = s.mm ∧ t.inputs = s.inputs ∧ t.faults = e :: s.faults ∧
      t.response = some (responseWord (.error e) 0#16) := by
  injection h with h; subst h; exact ⟨rfl, rfl, rfl, rfl, rfl, rfl⟩

/-! ### What each meaning answers -/

theorem execReadWord_eq (r : Reg) (s : State) :
    execReadWord r s = if r.size = 1 then succeed (zext16 (s.rf.readWord r)) s else raise .sizeMismatch s := by
  unfold execReadWord; split <;> simp_all

theorem execWriteWord_eq (r : Reg) (b : Byte) (s : State) :
    execWriteWord r b s = if r.size = 1 then succeed 0#16 (s.setRf (s.rf.writeWord r b)) else raise .sizeMismatch s := by
  unfold execWriteWord; split <;> simp_all

theorem execReadDword_eq (r : Reg) (s : State) :
    execReadDword r s =
      if r.size = 2 then succeed (s.rf.readDword s.config.targetEndian r) s else raise .sizeMismatch s := by
  unfold execReadDword; split <;> simp_all

theorem execWriteDword_eq (r : Reg) (v : Dword) (s : State) :
    execWriteDword r v s =
      if r.size = 2 then succeed 0#16 (s.setRf (s.rf.writeDword s.config.targetEndian r v))
      else raise .sizeMismatch s := by
  unfold execWriteDword; split <;> simp_all

theorem execCopyRegister_eq (dst src : Reg) (s : State) :
    execCopyRegister dst src s =
      if dst.size = src.size then
        (if src.size = 1 then succeed 0#16 (s.setRf (s.rf.copyWord dst src))
         else succeed 0#16 (s.setRf (s.rf.copyDword dst src)))
      else raise .sizeMismatch s := by
  unfold execCopyRegister; split <;> simp_all

theorem execGetFlags_eq (s : State) :
    execGetFlags s =
      if (s.rf.slot 0).extractLsb' 0 4 = 0#4 then succeed (zext16 (s.rf.slot 0)) s else raise .invalidFlagState s := by
  unfold execGetFlags
  change (match StatusFlags.ofByte (s.rf.slot 0) with
    | none => raise .invalidFlagState s
    | some flags => succeed (zext16 flags.toByte) s) = _
  cases h : StatusFlags.ofByte (s.rf.slot 0) with
  | none => rw [if_neg ((StatusFlags.ofByte_eq_none_iff _).mp h)]
  | some fs =>
    obtain ⟨h1, h2⟩ := StatusFlags.toByte_of_ofByte h
    rw [if_pos h2]; simp only [h1]

theorem execSetFlags_eq (b : Byte) (s : State) :
    execSetFlags b s =
      if b.extractLsb' 0 4 = 0#4 then succeed 0#16 (s.setRf (s.rf.setSlot 0 b)) else raise .invalidFlagState s := by
  unfold execSetFlags
  cases h : StatusFlags.ofByte b with
  | none => rw [if_neg ((StatusFlags.ofByte_eq_none_iff _).mp h)]
  | some fs =>
    obtain ⟨h1, h2⟩ := StatusFlags.toByte_of_ofByte h
    rw [if_pos h2]; simp only [h1]; rfl

theorem execReadByte_eq (a : Addr) (s : State) :
    execReadByte a s =
      match locate a with
      | none => raise .unmappedAddress s
      | some loc => succeed (zext16 (s.mm.load loc)) s := by
  unfold execReadByte memRead
  cases locate a <;> rfl

theorem execWriteByte_eq (a : Addr) (b : Byte) (s : State) :
    execWriteByte a b s =
      match locate a with
      | none => raise .unmappedAddress s
      | some loc => succeed 0#16 (s.setMm (s.mm.store loc b)) := by
  unfold execWriteByte memWrite
  cases locate a <;> rfl

/-! ### What a command can do -/

/-- The one inversion of `exec`: a command raises the error its rule names and changes nothing else, or it succeeds, and then it changes
at most the slots of its footprint and, for WRITE_BYTE, one location. -/
theorem exec_cases (i : Instr) (s : State) :
    (∃ e, commandError s i = some e ∧ e ≠ .illegalCommand ∧ exec i s = .next (s.afterError e)) ∨
    (commandError s i = none ∧ ∃ rf mm,
      exec i s = .next (((s.setRf rf).setMm mm).setResponse (some (responseWord .ok (resultData s i)))) ∧
      (∀ j, j ∉ writtenSlots i → rf.slot j = s.rf.slot j) ∧
      (isRegisterFileCommand i = false → rf = s.rf) ∧
      (∀ a b, i = .writeByte a b → ∃ loc, locate a = some loc ∧ mm = s.mm.store loc b) ∧
      ((∀ a b, i ≠ .writeByte a b) → mm = s.mm)) := by
  cases i with
  | readWord r =>
    rcases r.size_eq with h | h
    · exact .inr ⟨by simp [commandError, h], s.rf, s.mm, by simp only [exec, execReadWord_eq, h, if_true]; rfl,
        by simp, by simp, by simp, by simp⟩
    · exact .inl ⟨.sizeMismatch, by simp [commandError, h], by simp, by simp [exec, execReadWord_eq, h, raise]⟩
  | writeWord r b =>
    rcases r.size_eq with h | h
    · refine .inr ⟨by simp [commandError, h], s.rf.writeWord r b, s.mm,
        by simp only [exec, execWriteWord_eq, h, if_true]; rfl, fun j hj => ?_, by simp [isRegisterFileCommand],
        by simp, by simp⟩
      simp [writtenSlots, Reg.slots, h] at hj
      exact RegisterFile.slot_setSlot_ne _ _ (Ne.symm hj)
    · exact .inl ⟨.sizeMismatch, by simp [commandError, h], by simp, by simp [exec, execWriteWord_eq, h, raise]⟩
  | readDword r =>
    rcases r.size_eq with h | h
    · exact .inl ⟨.sizeMismatch, by simp [commandError, h], by simp, by simp [exec, execReadDword_eq, h, raise]⟩
    · exact .inr ⟨by simp [commandError, h], s.rf, s.mm, by simp only [exec, execReadDword_eq, h, if_true]; rfl,
        by simp, by simp, by simp, by simp⟩
  | writeDword r v =>
    rcases r.size_eq with h | h
    · exact .inl ⟨.sizeMismatch, by simp [commandError, h], by simp, by simp [exec, execWriteDword_eq, h, raise]⟩
    · refine .inr ⟨by simp [commandError, h], s.rf.writeDword s.config.targetEndian r v, s.mm,
        by simp only [exec, execWriteDword_eq, h, if_true]; rfl, fun j hj => ?_, by simp [isRegisterFileCommand],
        by simp, by simp⟩
      simp [writtenSlots, Reg.slots, h] at hj
      rw [RegisterFile.slot_writeDword, if_neg (Ne.symm hj.2), if_neg (Ne.symm hj.1)]
  | copyRegister dst src =>
    by_cases h : dst.size = src.size
    · rcases src.size_eq with h1 | h1
      · refine .inr ⟨by simp [commandError, h], s.rf.copyWord dst src, s.mm,
          by simp only [exec, execCopyRegister_eq, h, h1, if_true]; rfl, fun j hj => ?_,
          by simp [isRegisterFileCommand], by simp, by simp⟩
        simp [writtenSlots, Reg.slots, h, h1] at hj
        exact RegisterFile.slot_setSlot_ne _ _ (Ne.symm hj)
      · refine .inr ⟨by simp [commandError, h], s.rf.copyDword dst src, s.mm,
          by simp only [exec, execCopyRegister_eq, h, h1, if_true]; rfl, fun j hj => ?_,
          by simp [isRegisterFileCommand], by simp, by simp⟩
        simp [writtenSlots, Reg.slots, h, h1] at hj
        rw [RegisterFile.slot_copyDword, if_neg (Ne.symm hj.2), if_neg (Ne.symm hj.1)]
    · exact .inl ⟨.sizeMismatch, by simp [commandError, h], by simp, by simp [exec, execCopyRegister_eq, h, raise]⟩
  | getFlags =>
    by_cases h : (s.rf.slot 0).extractLsb' 0 4 = 0#4
    · exact .inr ⟨by simp [commandError, h], s.rf, s.mm, by simp only [exec, execGetFlags_eq, h, if_true]; rfl,
        by simp, by simp, by simp, by simp⟩
    · exact .inl ⟨.invalidFlagState, by simp [commandError, h], by simp, by simp [exec, execGetFlags_eq, h, raise]⟩
  | setFlags b =>
    by_cases h : b.extractLsb' 0 4 = 0#4
    · refine .inr ⟨by simp [commandError, h], s.rf.setSlot 0 b, s.mm,
        by simp only [exec, execSetFlags_eq, h, if_true]; rfl, fun j hj => ?_, by simp [isRegisterFileCommand],
        by simp, by simp⟩
      simp [writtenSlots] at hj
      exact RegisterFile.slot_setSlot_ne _ _ (Ne.symm hj)
    · exact .inl ⟨.invalidFlagState, by simp [commandError, h], by simp, by simp [exec, execSetFlags_eq, h, raise]⟩
  | readByte a =>
    by_cases h : inGap a
    · exact .inl ⟨.unmappedAddress, if_pos h, by simp,
        by simp only [exec, execReadByte_eq, (locate_eq_none_iff a).mpr h, raise]⟩
    · cases hl : locate a with
      | none => exact absurd ((locate_eq_none_iff a).mp hl) h
      | some loc =>
        exact .inr ⟨if_neg h, s.rf, s.mm, by simp only [exec, execReadByte_eq, hl, resultData]; rfl,
          by simp, by simp, by simp, by simp⟩
  | writeByte a b =>
    by_cases h : inGap a
    · exact .inl ⟨.unmappedAddress, if_pos h, by simp,
        by simp only [exec, execWriteByte_eq, (locate_eq_none_iff a).mpr h, raise]⟩
    · cases hl : locate a with
      | none => exact absurd ((locate_eq_none_iff a).mp hl) h
      | some loc =>
        refine .inr ⟨if_neg h, s.rf, s.mm.store loc b, by simp only [exec, execWriteByte_eq, hl]; rfl,
          by simp, by simp, fun a' b' e => ?_, fun e => absurd rfl (e a b)⟩
        cases e; exact ⟨loc, hl, rfl⟩

end Sys2Proof.Machine
end

