-- ==== Sys2Proof/Laws/PerInstr.lean ====
section
/-! SUPPORT. The family EncodingRow: a command's word belongs to its row of R86's table, and the command is well formed
(30_encoding.md R86). -/

namespace Sys2Proof.Laws.EncodingRow

/-- The command is well formed, and its word has its row's fixed bits. -/
def Statement (i : Instr) : Prop := i.wellFormed = true ∧ i.row.covers (encode i) = true

/-- A format R word has the fixed bits of a row whose mask leaves out only fields that may hold anything. -/
theorem covers_formatR (op ra rb : BitVec 4) (dh dl : Byte) (mask value : CmdWord)
    (h : ∀ i, i < 32 → ((formatR op ra rb dh dl).getLsbD i && mask.getLsbD i) = value.getLsbD i) :
    (EncodingRow.mk mask value).covers (formatR op ra rb dh dl) = true := by
  have : formatR op ra rb dh dl &&& mask = value := by
    apply BitVec.eq_of_getLsbD_eq
    intro i hi
    rw [BitVec.getLsbD_and, h i hi]
  simpa [EncodingRow.covers] using this

/-- The same of format M. -/
theorem covers_formatM (op : BitVec 4) (addr : Addr) (data : Byte) (mask value : CmdWord)
    (h : ∀ i, i < 32 → ((formatM op addr data).getLsbD i && mask.getLsbD i) = value.getLsbD i) :
    (EncodingRow.mk mask value).covers (formatM op addr data) = true := by
  have : formatM op addr data &&& mask = value := by
    apply BitVec.eq_of_getLsbD_eq
    intro i hi
    rw [BitVec.getLsbD_and, h i hi]
  simpa [EncodingRow.covers] using this

theorem readWord (reg : Reg) : Statement (.readWord reg) := by
  refine ⟨Instr.wellFormed_all _, covers_formatR _ _ _ _ _ _ _ fun i hi => ?_⟩
  rw [getLsbD_formatR]; interval_cases i <;> simp

theorem writeWord (reg : Reg) (byte : Byte) : Statement (.writeWord reg byte) := by
  refine ⟨Instr.wellFormed_all _, covers_formatR _ _ _ _ _ _ _ fun i hi => ?_⟩
  rw [getLsbD_formatR]; interval_cases i <;> simp

theorem readDword (reg : Reg) : Statement (.readDword reg) := by
  refine ⟨Instr.wellFormed_all _, covers_formatR _ _ _ _ _ _ _ fun i hi => ?_⟩
  rw [getLsbD_formatR]; interval_cases i <;> simp

theorem writeDword (reg : Reg) (word16 : Dword) : Statement (.writeDword reg word16) := by
  refine ⟨Instr.wellFormed_all _, covers_formatR _ _ _ _ _ _ _ fun i hi => ?_⟩
  rw [getLsbD_formatR]; interval_cases i <;> simp

theorem copyRegister (dst src : Reg) : Statement (.copyRegister dst src) := by
  refine ⟨Instr.wellFormed_all _, covers_formatR _ _ _ _ _ _ _ fun i hi => ?_⟩
  rw [getLsbD_formatR]; interval_cases i <;> simp

theorem getFlags : Statement .getFlags := ⟨rfl, by decide⟩

theorem setFlags (flagbyte : Byte) : Statement (.setFlags flagbyte) := by
  refine ⟨Instr.wellFormed_all _, covers_formatR _ _ _ _ _ _ _ fun i hi => ?_⟩
  rw [getLsbD_formatR]; interval_cases i <;> simp

theorem readByte (address : Addr) : Statement (.readByte address) := by
  refine ⟨Instr.wellFormed_all _, covers_formatM _ _ _ _ _ fun i hi => ?_⟩
  rw [getLsbD_formatM]; interval_cases i <;> simp

theorem writeByte (address : Addr) (byte : Byte) : Statement (.writeByte address byte) := by
  refine ⟨Instr.wellFormed_all _, covers_formatM _ _ _ _ _ fun i hi => ?_⟩
  rw [getLsbD_formatM]; interval_cases i <;> simp

end Sys2Proof.Laws.EncodingRow
end

