-- ==== Sys2Proof/Laws/Reset.lean ====
section
/-! SUPPORT. What the reset contents are, byte by byte (10_state.md R42 to R44; 70_reset_and_hazards.md R200, R201). -/

namespace Sys2Proof.Machine

theorem configLegal_iff (c : Config) :
    configLegal c = true ↔
      imageFits 12 c.initRegs = true ∧ ∀ seg, imageFits (segmentSize seg) (c.image seg) = true := by
  simp only [configLegal, Bool.and_eq_true]
  constructor
  · rintro ⟨⟨⟨⟨⟨⟨⟨h0, h1⟩, h2⟩, h3⟩, h4⟩, h5⟩, h6⟩, h7⟩
    exact ⟨h0, fun seg => by cases seg <;> assumption⟩
  · rintro ⟨h0, h⟩
    exact ⟨⟨⟨⟨⟨⟨⟨h0, h .rom⟩, h .vram⟩, h .extram⟩, h .wram⟩, h .oam⟩, h .io⟩, h .hram⟩

theorem slot_initialRegisterFile (c : Config) (i : Fin 12) :
    (initialRegisterFile c).slot i = imageByte c.initRegs i.val := by
  fin_cases i <;> rfl

theorem buffer_initialMemoryMap (c : Config) (seg : Segment) :
    (initialMemoryMap c).buffer seg = initialBuffer (c.image seg) := by
  cases seg <;> rfl

theorem read_initialBuffer (image : Option (List Byte)) (k : Nat) :
    Memory.read (initialBuffer image) k = imageByte image k := by
  cases image with
  | none => rfl
  | some bytes => simpa [initialBuffer, imageByte, Memory.unlisted] using Memory.read_ofBytes 0 k bytes

theorem initialBuffer_wf {size : Nat} {image : Option (List Byte)} (h : imageFits size image = true) :
    (initialBuffer image).wf size = true := by
  cases image with
  | none => rfl
  | some bytes =>
    have hl : bytes.length = size := by simpa [imageFits] using h
    exact Memory.ofBytes_wfFrom size 0 bytes (by omega)

/-- A legal configuration's memory map is in canonical form. -/
theorem initialMemoryMap_wf {c : Config} (h : configLegal c = true) : (initialMemoryMap c).wf = true := by
  rw [MemoryMap.wf_iff]
  intro seg
  rw [buffer_initialMemoryMap]
  exact initialBuffer_wf (((configLegal_iff c).mp h).2 seg)

/-- The reset state is the construction of the default instance. -/
theorem construct_default : construct Config.default = some State.reset := rfl

end Sys2Proof.Machine
end

