-- ==== Sys2Proof/Laws/Step.lean ====
section
/-! SUPPORT. What a step can do, said once (00_scope.md R5; 20_memory.md R67). -/

namespace Sys2Proof.Machine

theorem step_of_command {s : State} {w : CmdWord} {rest : List PortInput} (h : s.inputs = .command w :: rest) :
    step s = runWord w (s.setInputs rest) := by
  simp only [step, takeInput, h]; rfl

theorem step_of_reset {s : State} {scope : ResetScope} {rest : List PortInput} (h : s.inputs = .reset scope :: rest) :
    step s = applyReset scope (s.setInputs rest) := by
  simp only [step, takeInput, h]; rfl

/-- A word that decodes runs its command; one that does not raises IllegalCommand (60_exceptions.md R174). -/
theorem runWord_eq (w : CmdWord) (s : State) :
    (∃ i, decode w = .ok i ∧ runWord w s = exec i s) ∨
    (∃ why, decode w = .error why ∧ runWord w s = .next (s.afterError .illegalCommand)) := by
  unfold runWord
  cases decode w with
  | ok i => exact .inl ⟨i, rfl, rfl⟩
  | error why => exact .inr ⟨why, rfl, rfl⟩

/-- The inversion of `step`: it idles, applies a reset, or runs a word. -/
theorem step_cases {s t : State} (h : step s = .next t) :
    (s.inputs = [] ∧ t = s.setResponse none) ∨
    (∃ scope rest, s.inputs = .reset scope :: rest ∧ configLegal s.config = true ∧
      t = ((s.setInputs rest).reload scope).setResponse none) ∨
    (∃ w rest, s.inputs = .command w :: rest ∧ runWord w (s.setInputs rest) = .next t) := by
  unfold step takeInput at h
  split at h
  · next hi => injection h with h; exact .inl ⟨hi, h.symm⟩
  · next input rest hi =>
    cases input with
    | command w => exact .inr (.inr ⟨w, rest, hi, h⟩)
    | reset scope =>
      unfold runInput applyReset at h
      simp only at h
      split at h
      · next hl => injection h with h; exact .inr (.inl ⟨scope, rest, hi, hl, h.symm⟩)
      · cases h

@[simp] theorem State.reload_config (s : State) (scope : ResetScope) : (s.reload scope).config = s.config := by
  cases scope <;> rfl

@[simp] theorem State.reload_inputs (s : State) (scope : ResetScope) : (s.reload scope).inputs = s.inputs := by
  cases scope <;> rfl

@[simp] theorem State.reload_faults (s : State) (scope : ResetScope) : (s.reload scope).faults = s.faults := by
  cases scope <;> rfl

end Sys2Proof.Machine
end

