-- ==== Sys2Proof/Tests/Slice0.lean ====
section
/-! SUPPORT. Tests on fixed values, and a witness for every statement that has hypotheses. Expected results are those of
95_test_vectors.md and 30_encoding.md, cited at each test. -/

namespace Sys2Proof.Tests

open Sys2Proof Sys2Proof.Machine

/-! ### Small states -/

/-- The configuration of `SEQ` (95_test_vectors.md): INIT_REGS = 0x00 to 0x0B. -/
def seqConfig (endian : Endian) : Config :=
  { Config.default with
    targetEndian := endian
    initRegs := some [0x00#8, 0x01#8, 0x02#8, 0x03#8, 0x04#8, 0x05#8, 0x06#8, 0x07#8, 0x08#8, 0x09#8, 0x0A#8, 0x0B#8] }

/-- The instance `SEQ` after reset. -/
def seq (endian : Endian) : State := (construct (seqConfig endian)).getD State.reset

/-- `Z` of 95_test_vectors.md with the given byte in F. -/
def withF (b : Byte) : State := State.reset.setRf (State.reset.rf.setSlot 0 b)

/-- `Z` with the given contents of WRAM. -/
def withWram (m : Memory) : State := State.reset.setMm (State.reset.mm.setBuffer .wram m)

/-- A command word is presented. -/
def presenting (w : CmdWord) (s : State) : State := s.setInputs [.command w]

/-- The state after one step, if the step completes. -/
def stepped (s : State) : Option State :=
  match step s with
  | .next t => some t
  | .fault _ => none
  | .refused _ => none

/-- The response to a presented word. -/
def answer (w : CmdWord) (s : State) : Option RspWord := (stepped (presenting w s)).bind State.response

/-- The register store after a presented word. -/
def store (w : CmdWord) (s : State) : Option (List Byte) := (stepped (presenting w s)).map fun t => t.rf.x.toList

/-- The memory map's storage after a presented word. -/
def memory (w : CmdWord) (s : State) : Option MemoryMap := (stepped (presenting w s)).map State.mm

/-- The store of `SEQ`. -/
def seqStore : List Byte :=
  [0x00#8, 0x01#8, 0x02#8, 0x03#8, 0x04#8, 0x05#8, 0x06#8, 0x07#8, 0x08#8, 0x09#8, 0x0A#8, 0x0B#8]

/-- The command a word decodes to. -/
def decoded (w : CmdWord) : Option Instr := (decode w).toOption

/-! ### Decoding: words written out from 30_encoding.md R81 to R86 (OP RA RB Z4 DH DL, or OP Z4 ADDR DATA) -/

/-- OP 0001, RA 0101 (F): 0x15000000 of R94. -/
theorem test_decode_readWord :
    decoded 0b0001_0101_0000_0000_00000000_00000000#32 = some (.readWord .f) := by decide

/-- OP 0010, RA 0101 (F), DL 0x05: 0x25000005 of R94. -/
theorem test_decode_writeWord :
    decoded 0b0010_0101_0000_0000_00000000_00000101#32 = some (.writeWord .f 0x05#8) := by decide

/-- OP 0011, RA 1000 (AF): 0x38000000 of R94. -/
theorem test_decode_readDword :
    decoded 0b0011_1000_0000_0000_00000000_00000000#32 = some (.readDword .af) := by decide

/-- OP 0100, RA 1001 (BC), IMM16 0xBBCC: 0x4900BBCC of R94. -/
theorem test_decode_writeDword :
    decoded 0b0100_1001_0000_0000_10111011_11001100#32 = some (.writeDword .bc 0xBBCC#16) := by decide

/-- OP 0101, RA 0000 (A), RB 1001 (BC): 0x50900000 of R94. -/
theorem test_decode_copyRegister :
    decoded 0b0101_0000_1001_0000_00000000_00000000#32 = some (.copyRegister .a .bc) := by decide

/-- OP 0110 and nothing else: 0x60000000 of R94. -/
theorem test_decode_getFlags :
    decoded 0b0110_0000_0000_0000_00000000_00000000#32 = some .getFlags := by decide

/-- OP 0111, DL 0x90: 0x70000090 of R94. -/
theorem test_decode_setFlags :
    decoded 0b0111_0000_0000_0000_00000000_10010000#32 = some (.setFlags 0x90#8) := by decide

/-- OP 1000, ADDR 0xE010: 0x80E01000 of R94. -/
theorem test_decode_readByte :
    decoded 0b1000_0000_1110000000010000_00000000#32 = some (.readByte 0xE010#16) := by decide

/-- OP 1001, ADDR 0x7FFF, DATA 0x11: 0x907FFF11 of R94. -/
theorem test_decode_writeByte :
    decoded 0b1001_0000_0111111111111111_00010001#32 = some (.writeByte 0x7FFF#16 0x11#8) := by decide

/-- 95_test_vectors.md, 2.1: the words with no assigned opcode or a register code that names nothing. -/
theorem test_decode_illegal_codes :
    [0x00000000#32, 0xA0000000#32, 0xF0000000#32, 0x1E000000#32, 0x1F000000#32, 0x5E000000#32, 0x50E00000#32].map
      decoded = [none, none, none, none, none, none, none] := by decide

/-- 95_test_vectors.md, 2.1: the words with a must-be-zero bit set. -/
theorem test_decode_illegal_zero_bits :
    [0x10100000#32, 0x10010000#32, 0x10000001#32, 0x20000100#32, 0x48100000#32, 0x60000001#32].map decoded =
      [none, none, none, none, none, none] ∧
    [0x61000000#32, 0x70000100#32, 0x7100000F#32, 0x80000001#32, 0x81000000#32, 0x91FFFF00#32].map decoded =
      [none, none, none, none, none, none] := by decide

/-- 95_test_vectors.md, 2.1: legal words that fail at execution, or run. -/
theorem test_decode_legal_words :
    decoded 0x70000008#32 = some (.setFlags 0x08#8) ∧ decoded 0x18000000#32 = some (.readWord .af) ∧
      decoded 0x21000000#32 = some (.writeWord .b 0x00#8) := by decide

/-- The table's numbering is the word's own, and bits above the 32 spell no command (R80). -/
theorem test_decodeTableWord :
    decodeTableWord 32 0x907FFF11 = some (.writeByte 0x7FFF#16 0x11#8) ∧ decodeTableWord 64 0x1_60000000 = none := by
  decide

/-! ### Well-formedness: each check refuses an ill-formed term (30_encoding.md R93; 70_reset_and_hazards.md R201) -/

/-- A literal one above its field, and a flag named twice, each in every line that can hold it. -/
theorem test_wellFormed_refuses :
    (AsmLine.writeWord .f 0x100).wellFormed = false ∧ (AsmLine.writeDword .bc 0x10000).wellFormed = false ∧
      (AsmLine.setFlags (.imm 0x100)).wellFormed = false ∧ (AsmLine.setFlags (.list [.z, .c, .z])).wellFormed = false ∧
      (AsmLine.readByte 0x10000).wellFormed = false ∧ (AsmLine.writeByte 0x10000 0xff).wellFormed = false ∧
      (AsmLine.writeByte 0xffff 0x100).wellFormed = false := by decide

/-- The largest literals, a full flag list and a size class that only execution rejects are taken (R93). -/
theorem test_wellFormed_accepts :
    (AsmLine.writeWord .hl 0xff).wellFormed = true ∧ (AsmLine.writeDword .bc 0xffff).wellFormed = true ∧
      (AsmLine.setFlags (.imm 0xff)).wellFormed = true ∧
      (AsmLine.setFlags (.list [.z, .n, .h, .c])).wellFormed = true ∧
      (AsmLine.writeByte 0xffff 0xff).wellFormed = true := by decide

/-- Images of a wrong size, one for every image of R201. -/
theorem test_configLegal_refuses :
    ∀ c ∈ [{ Config.default with initRegs := some [0x00#8] }, { Config.default with initRom := some [0x00#8] },
      { Config.default with initVram := some [] }, { Config.default with initExtram := some [] },
      { Config.default with initWram := some [] }, { Config.default with initOam := some [] },
      { Config.default with initIo := some [] }, { Config.default with initHram := some [] }],
      configLegal c = false ∧ construct c = none := by decide

/-- An image of the exact size, and no image, are taken. -/
theorem test_configLegal_accepts : configLegal (seqConfig .big) = true ∧ configLegal Config.default = true := by decide

/-- The assembler refuses text that R93's syntax does not have: a missing operand, an unknown register, an 8-bit literal too
large. -/
theorem test_assembler_refuses :
    (assembleLine "WRITE_WORD F".toList).toOption = none ∧ (assembleLine "READ_WORD X".toList).toOption = none ∧
      (assembleLine "WRITE_WORD F, 256".toList).toOption = none := by decide

/-! ### One step of every command (95_test_vectors.md, sections 1 and 2) -/

/-- 2.2: READ_WORD B. -/
theorem test_readWord : answer 0x11000000#32 (seq .little) = some 0x00000003#32 := by decide

/-- 2.2: READ_WORD SP is SizeMismatch. -/
theorem test_readWord_size :
    answer 0x1C000000#32 (seq .little) = some 0x00010000#32 ∧ store 0x1C000000#32 (seq .little) = some seqStore := by decide

/-- 2.2: WRITE_WORD F, 0xff is not masked. -/
theorem test_writeWord :
    answer 0x250000FF#32 (seq .little) = some 0x00000000#32 ∧
      store 0x250000FF#32 (seq .little) = some (0xFF#8 :: seqStore.tail) := by decide

/-- 2.2: WRITE_WORD PC, 0x00 is SizeMismatch, with the store unchanged. -/
theorem test_writeWord_size :
    answer 0x2D000000#32 (seq .little) = some 0x00010000#32 ∧ store 0x2D000000#32 (seq .little) = some seqStore := by decide

/-- 2.3: READ_DWORD SP, by TARGET_ENDIAN. -/
theorem test_readDword :
    answer 0x3C000000#32 (seq .little) = some 0x00000908#32 ∧ answer 0x3C000000#32 (seq .big) = some 0x00000809#32 := by
  decide

/-- 2.3: READ_DWORD F is SizeMismatch. -/
theorem test_readDword_size : answer 0x35000000#32 (seq .big) = some 0x00010000#32 := by decide

/-- S11: WRITE_DWORD AF, 0xAAFF, by TARGET_ENDIAN. -/
theorem test_writeDword :
    store 0x4800AAFF#32 (seq .little) = some (0xFF#8 :: 0xAA#8 :: seqStore.drop 2) ∧
      store 0x4800AAFF#32 (seq .big) = some (0xAA#8 :: 0xFF#8 :: seqStore.drop 2) := by decide

/-- 2.3: WRITE_DWORD A is SizeMismatch. -/
theorem test_writeDword_size :
    answer 0x40001234#32 (seq .little) = some 0x00010000#32 ∧ store 0x40001234#32 (seq .little) = some seqStore := by decide

/-- 2.4: COPY_REGISTER HL, PC gives x[6] = 0x0A, x[7] = 0x0B under both byte orders. -/
theorem test_copyRegister :
    ∀ e ∈ [Endian.little, .big], store 0x5BD00000#32 (seq e) =
      some [0x00#8, 0x01#8, 0x02#8, 0x03#8, 0x04#8, 0x05#8, 0x0A#8, 0x0B#8, 0x08#8, 0x09#8, 0x0A#8, 0x0B#8] := by decide

/-- 2.4: COPY_REGISTER A, AF is SizeMismatch. -/
theorem test_copyRegister_size :
    answer 0x50800000#32 (seq .little) = some 0x00010000#32 ∧ store 0x50800000#32 (seq .little) = some seqStore := by decide

/-- 2.5: GET_FLAGS of 0xF0. -/
theorem test_getFlags : answer 0x60000000#32 (withF 0xF0#8) = some 0x000000F0#32 := by decide

/-- 2.5: GET_FLAGS of 0xF1 is InvalidFlagState. -/
theorem test_getFlags_invalid : answer 0x60000000#32 (withF 0xF1#8) = some 0x00020000#32 := by decide

/-- 2.5: SET_FLAGS of Z and C; a bad low nibble of F is cleared and A is untouched. -/
theorem test_setFlags :
    answer 0x70000090#32 (withF 0x05#8) = some 0x00000000#32 ∧
      store 0x70000090#32 (seq .little) = some (0x90#8 :: seqStore.tail) := by decide

/-- 2.5: SET_FLAGS 0x08 is InvalidFlagState, F unchanged. -/
theorem test_setFlags_invalid :
    answer 0x70000008#32 (seq .little) = some 0x00020000#32 ∧ store 0x70000008#32 (seq .little) = some seqStore := by decide

/-- S9: READ_BYTE 0xe010 reads internal RAM's byte of 0xC010. -/
theorem test_readByte_echo : answer 0x80E01000#32 (withWram [(0x10, 0x55#8)]) = some 0x00000055#32 := by decide

/-- 2.6: READ_BYTE at both ends of the gap is UnmappedAddress. -/
theorem test_readByte_gap :
    answer 0x80FEA000#32 State.reset = some 0x00030000#32 ∧ answer 0x80FEFF00#32 State.reset = some 0x00030000#32 := by decide

/-- S9, S8: WRITE_BYTE 0xe010, 0x66 stores in internal RAM; 0x7fff, 0x11 in ROM's last byte. -/
theorem test_writeByte :
    memory 0x90E01066#32 State.reset = some ⟨[], [], [], [(0x10, 0x66#8)], [], [], [], 0x00#8⟩ ∧
      memory 0x907FFF11#32 State.reset = some ⟨[(0x7FFF, 0x11#8)], [], [], [], [], [], [], 0x00#8⟩ := by decide

/-- 2.6: WRITE_BYTE 0xfea0, 0x01 is UnmappedAddress and writes nothing. -/
theorem test_writeByte_gap :
    answer 0x90FEA001#32 State.reset = some 0x00030000#32 ∧ memory 0x90FEA001#32 State.reset = some State.reset.mm := by
  decide

/-- 2.1: 0x7100000F is IllegalCommand before its flag byte is looked at; the record holds it. -/
theorem test_illegalCommand :
    answer 0x7100000F#32 State.reset = some 0x00040000#32 ∧
      (stepped (presenting 0x7100000F#32 State.reset)).map State.faults = some [.illegalCommand] := by decide

/-- 10_state.md R43: byte k of the image is byte k of the buffer; a zero byte is not listed. -/
theorem test_reset_image :
    initialBuffer (some [0x07#8, 0x00#8, 0x09#8]) = [(0, 0x07#8), (2, 0x09#8)] := by decide

/-- 00_scope.md R10: 0x7FFF prints as `0x7fff` and 0x0100 as `0x100`. -/
theorem test_renderHex :
    renderHex 0x7FFF = "0x7fff".toList ∧ renderHex 0x0100 = "0x100".toList ∧ renderHex 0 = "0x0".toList := by decide

/-! ### Witnesses: values that meet the hypotheses of each statement, clause by clause -/

/-- A decodable word for EncodeOfDecodedIsTheWord, PresentedTableWordRuns and StepRunsTheDecodedCommand. -/
theorem witness_decodable_word :
    decode 0x70000090#32 = .ok (.setFlags 0x90#8) ∧ decodeTableWord 32 0x70000090 = some (.setFlags 0x90#8) ∧
      (presenting 0x70000090#32 State.reset).inputs = .command 0x70000090#32 :: [] := ⟨rfl, rfl, rfl⟩

/-- CommandsAreExactlyTheTableRows: both sides of every row's equivalence, and the flag byte clause at the low nibbles 1 and F. -/
theorem witness_CommandsAreExactlyTheTableRows :
    (decode 0x1D000000#32 = .ok (.readWord .pc) ∧ 0x1D000000#32 &&& 0xF0FFFFFF#32 = 0x10000000#32 ∧
        Reg.ofCode ((0x1D000000#32).extractLsb' 24 4) = some .pc) ∧
      (decode 0x20000100#32 = .error .mustBeZero ∧ 0x20000100#32 &&& 0xF0FFFF00#32 ≠ 0x20000000#32) ∧
      (decode 0x70000001#32 = .ok (.setFlags 0x01#8) ∧ (0x01#8).extractLsb' 0 4 ≠ 0x0#4) ∧
      (decode 0x700000FF#32 = .ok (.setFlags 0xFF#8) ∧ (0xFF#8).extractLsb' 0 4 ≠ 0x0#4) :=
  ⟨⟨rfl, by decide, by decide⟩, ⟨rfl, by decide⟩, ⟨rfl, by decide⟩, ⟨rfl, by decide⟩⟩

/-- IllegalWordsFailWithIllegalCommand: a word of each case of R87, at the cases' edges, presented. -/
theorem witness_IllegalWordsFailWithIllegalCommand :
    decode 0x00000000#32 = .error .unassignedOpcode ∧ decode 0xA0000000#32 = .error .unassignedOpcode ∧
      decode 0xF0000000#32 = .error .unassignedOpcode ∧ decode 0x1E000000#32 = .error .registerCode ∧
      decode 0x50F00000#32 = .error .registerCode ∧ decode 0x10000001#32 = .error .mustBeZero ∧
      decode 0x91FFFF00#32 = .error .mustBeZero ∧
      (presenting 0x00000000#32 State.reset).inputs = .command 0x00000000#32 :: [] :=
  ⟨rfl, rfl, rfl, rfl, rfl, rfl, rfl, rfl⟩

/-- EncodingRowsAreDisjoint: one word covered by the rows of two commands of one constructor, and a word that decodes. -/
theorem witness_EncodingRowsAreDisjoint :
    (Instr.readByte 0xFFFF#16).row.covers 0x80FFFF00#32 = true ∧ (Instr.readByte 0x0000#16).row.covers 0x80FFFF00#32 = true ∧
      decode 0x80FFFF00#32 = .ok (.readByte 0xFFFF#16) := ⟨by decide, by decide, rfl⟩

/-- MixedWidthViewsOfAPair: a pair of the list and a state under each byte order. -/
theorem witness_MixedWidthViewsOfAPair :
    (Reg.hl, Reg.l, Reg.h) ∈ [(Reg.af, Reg.f, Reg.a), (.bc, .c, .b), (.de, .e, .d), (.hl, .l, .h)] ∧
      (seq .little).config.targetEndian = .little ∧ (seq .big).config.targetEndian = .big := by decide

/-- The size classes of ReadWord…, WriteWord…, ReadDword…, WriteDword…, CopyRegister…, CopyDoesNotDependOnEndianness,
RegisterRoundTrips, SizeMismatchIsNeverCoerced, CombineByEndianness and FMayHoldAnyByte: a register of each, equal, unequal and the same, and both byte
orders. -/
theorem witness_size_classes :
    Reg.f.size = 1 ∧ Reg.h.size = 1 ∧ Reg.af.size = 2 ∧ Reg.pc.size = 2 ∧ Reg.a.size ≠ Reg.bc.size ∧ Reg.bc.size ≠ Reg.a.size ∧
      Reg.sp = Reg.sp ∧ (seq .little).config.targetEndian = .little ∧ (seq .big).config.targetEndian = .big := by decide

/-- GetFlagsAnswersTheFlagByte, SetFlagsWritesTheWholeOfF, FMayHoldAnyByte, WriteWordStoresTheByte: flag bytes at the low nibble's edges, as an operand and in
F. -/
theorem witness_flag_bytes :
    ((withF 0xF0#8).rf.slot 0).extractLsb' 0 4 = 0x0#4 ∧ ((withF 0xF1#8).rf.slot 0).extractLsb' 0 4 ≠ 0x0#4 ∧
      ((withF 0x0F#8).rf.slot 0).extractLsb' 0 4 ≠ 0x0#4 ∧ (0x00#8).extractLsb' 0 4 = 0x0#4 ∧
      (0xF0#8).extractLsb' 0 4 = 0x0#4 ∧ (0x01#8).extractLsb' 0 4 ≠ 0x0#4 ∧ (0x08#8).extractLsb' 0 4 ≠ 0x0#4 := by decide

/-- FMayHoldAnyByte, its last clause: a SET_FLAGS that answers OK. -/
theorem witness_setFlags_ok :
    exec (.setFlags 0xF0#8) (seq .little) =
      .next (((seq .little).setRf ((seq .little).rf.setSlot 0 0xF0#8)).setResponse (some (responseWord .ok 0x0000#16))) := rfl

/-- WriteFootprintOfEveryCommand: a register-file command that succeeds and one that fails, a READ_BYTE, a WRITE_BYTE with an address
outside its location, and one in the gap, each with a next state; slots outside the footprint. -/
theorem witness_WriteFootprintOfEveryCommand :
    (exec (.writeWord .a 0x77#8) State.reset =
        .next ((State.reset.setRf (State.reset.rf.setSlot 1 0x77#8)).setResponse (some (responseWord .ok 0x0000#16))) ∧
      (0 : Fin 12) ∉ writtenSlots (.writeWord .a 0x77#8)) ∧
      (commandError State.reset (.writeWord .bc 0x77#8) ≠ none ∧
        exec (.writeWord .bc 0x77#8) State.reset = .next (State.reset.afterError .sizeMismatch)) ∧
      (exec (.readByte 0xFFFF#16) State.reset = .next (State.reset.setResponse (some (responseWord .ok 0x0000#16))) ∧
        isRegisterFileCommand (.readByte 0xFFFF#16) = false) ∧
      (exec (.writeByte 0xE010#16 0x55#8) State.reset =
          .next ((withWram [(0x10, 0x55#8)]).setResponse (some (responseWord .ok 0x0000#16))) ∧
        locate 0xDE00#16 ≠ locate 0xE010#16) ∧
      (commandError State.reset (.writeByte 0xFEA0#16 0x55#8) ≠ none ∧
        exec (.writeByte 0xFEA0#16 0x55#8) State.reset = .next (State.reset.afterError .unmappedAddress)) :=
  ⟨⟨rfl, by decide⟩, ⟨by decide, rfl⟩, ⟨rfl, by decide⟩, ⟨rfl, by decide⟩, ⟨by decide, rfl⟩⟩

/-- AddressDispatch: both ends of every range of its chain, and the location each one has (95_test_vectors.md, 2.6). -/
theorem witness_AddressDispatch :
    ∀ row ∈ [(0x0000#16, some (Location.byte .rom 0)), (0x7FFF#16, some (.byte .rom 0x7FFF)),
      (0x8000#16, some (.byte .vram 0)), (0x9FFF#16, some (.byte .vram 0x1FFF)), (0xA000#16, some (.byte .extram 0)),
      (0xBFFF#16, some (.byte .extram 0x1FFF)), (0xC000#16, some (.byte .wram 0)), (0xDDFF#16, some (.byte .wram 0x1DFF)),
      (0xDE00#16, some (.byte .wram 0x1E00)), (0xDFFF#16, some (.byte .wram 0x1FFF)), (0xE000#16, some (.byte .wram 0)),
      (0xFDFF#16, some (.byte .wram 0x1DFF)), (0xFE00#16, some (.byte .oam 0)), (0xFE9F#16, some (.byte .oam 0x9F)),
      (0xFEA0#16, none), (0xFEFF#16, none), (0xFF00#16, some (.byte .io 0)), (0xFF7F#16, some (.byte .io 0x7F)),
      (0xFF80#16, some (.byte .hram 0)), (0xFFFE#16, some (.byte .hram 0x7E)), (0xFFFF#16, some .ie)],
      locate row.1 = row.2 := by decide

/-- ReadByteAnswersTheStoredByte, WriteByteStoresTheByte, GapAccessFails, EchoMirrorsInternalRam, EveryMappedAddressIsWritable: the
gap's neighbours, its ends, the echo's ends, the ends of the range without an alias, and a memory in canonical form. -/
theorem witness_address_ranges :
    (¬ inGap 0xFE9F#16 ∧ inGap 0xFEA0#16 ∧ inGap 0xFEFF#16 ∧ ¬ inGap 0xFF00#16 ∧ ¬ inGap 0x7FFF#16) ∧
      (0xE000 ≤ (0xE000#16).toNat ∧ (0xE000#16).toNat ≤ 0xFDFF ∧ 0xE000 ≤ (0xFDFF#16).toNat ∧ (0xFDFF#16).toNat ≤ 0xFDFF) ∧
      (0xDE00 ≤ (0xDE00#16).toNat ∧ (0xDFFF#16).toNat ≤ 0xDFFF ∧ locate 0xDE00#16 = locate 0xDE00#16) ∧
      (withWram [(0x10, 0x55#8), (0x1FFF, 0x01#8)]).mm.wf = true ∧ State.reset.mm.wf = true := by decide

/-- WriteByteFrame: a write with a next state, an address at another location, and a write in the gap. -/
theorem witness_WriteByteFrame :
    exec (.writeByte 0xC010#16 0x55#8) State.reset =
        .next ((withWram [(0x10, 0x55#8)]).setResponse (some (responseWord .ok 0x0000#16))) ∧
      locate 0xC011#16 ≠ locate 0xC010#16 ∧ locate 0xFEA0#16 = none ∧
      exec (.writeByte 0xFEA0#16 0x55#8) State.reset = .next (State.reset.afterError .unmappedAddress) :=
  ⟨rfl, by decide, by decide, rfl⟩

/-- InterruptEnableByteIsPlainStorage, its last clause: the write of IE has a next state. -/
theorem witness_InterruptEnableByteIsPlainStorage :
    exec (.writeByte 0xFFFF#16 0x1F#8) State.reset = .next
      ((State.reset.setMm (State.reset.mm.store .ie 0x1F#8)).setResponse (some (responseWord .ok 0x0000#16))) := rfl

/-- MemoryReadsTheLastWrite: two writes through the two addresses of one location, and a location neither writes. -/
theorem witness_MemoryReadsTheLastWrite :
    State.reset.mm.wf = true ∧ locate 0xE010#16 = some (.byte .wram 0x10) ∧
      lastWritten (.byte .wram 0x10) [.writeByte 0xC010#16 0x55#8, .writeByte 0xE010#16 0x66#8] = some 0x66#8 ∧
      locate 0xFFFF#16 = some .ie ∧
      lastWritten .ie [.writeByte 0xC010#16 0x55#8, .writeByte 0xE010#16 0x66#8] = none := by decide

/-- ResponseOfEveryCommandWord: one presented word of each outcome. -/
theorem witness_ResponseOfEveryCommandWord :
    (presenting 0x50900000#32 State.reset).inputs = .command 0x50900000#32 :: [] ∧
      decode 0xA0000000#32 = .error .unassignedOpcode ∧
      commandError State.reset (.copyRegister .a .bc) = some .sizeMismatch ∧
      commandError State.reset (.setFlags 0x01#8) = some .invalidFlagState ∧
      commandError State.reset (.readByte 0xFEFF#16) = some .unmappedAddress ∧
      commandError State.reset (.readByte 0xFF00#16) = none := ⟨rfl, rfl, by decide, by decide, by decide, by decide⟩

/-- FailingCommandChangesNoState and CoreGoesOnAfterAnError: a failing word, then another word, presented; the step's next state and
its response. -/
theorem witness_failing_command :
    let s := (seq .little).setInputs [.command 0x3F000000#32, .command 0x38000000#32]
    s.inputs = .command 0x3F000000#32 :: .command 0x38000000#32 :: [] ∧
      step s = .next ((s.setInputs [.command 0x38000000#32]).afterError .illegalCommand) ∧
      ((s.setInputs [.command 0x38000000#32]).afterError .illegalCommand).response = some 0x00040000#32 ∧
      rspStatus 0x00040000#32 ≠ 0#3 := ⟨rfl, rfl, rfl, by decide⟩

/-- FaultRecordIsNeverCleared, ConfigurationIsStatic, StepKeepsTheInvariant, RunsNeverStop: a step with a next state from a state that
meets the invariant, one that records an error and one that does not. -/
theorem witness_steps :
    State.reset.Inv ∧ (presenting 0x1C000000#32 (seq .big)).Inv ∧
      step (presenting 0x1C000000#32 (seq .big)) = .next (((seq .big).setInputs []).afterError .sizeMismatch) ∧
      step (presenting 0x60000000#32 State.reset) = .next (State.reset.setResponse (some 0x00000000#32)) :=
  ⟨by decide, by decide, rfl, rfl⟩

/-- AccessesHaveNoSideEffectAndAreIdempotent: a reading command with its next state; a write to another location; a memory in
canonical form; a mapped address with its byte; addresses outside the gap; an instance. -/
theorem witness_AccessesHaveNoSideEffectAndAreIdempotent :
    exec .getFlags State.reset = .next (State.reset.setResponse (some (responseWord .ok 0x0000#16))) ∧
      (0 : Fin 12) ∉ writtenSlots .getFlags ∧ locate 0xDFFF#16 ≠ locate 0xFDFF#16 ∧ State.reset.mm.wf = true ∧
      memRead (withWram [(0x10, 0x55#8)]).mm 0xE010#16 = some 0x55#8 ∧ ¬ inGap 0xFF80#16 ∧ ¬ inGap 0xFFFF#16 ∧
      construct (seqConfig .big) = some (seq .big) :=
  ⟨rfl, by decide, by decide, by decide, by decide, by decide, by decide, by decide⟩

/-- ComponentsShareNoState and ComponentsCommute: a command of each component; two states with equal register files and unlike memories,
and the reverse. -/
theorem witness_components :
    isRegisterFileCommand (.copyRegister .hl .pc) = true ∧ isRegisterFileCommand (.writeByte 0x8000#16 0x22#8) = false ∧
      (State.reset.rf = (withWram [(0x10, 0x55#8)]).rf ∧ State.reset.config = (withWram [(0x10, 0x55#8)]).config ∧
        State.reset ≠ withWram [(0x10, 0x55#8)]) ∧
      (State.reset.mm = (seq .big).mm ∧ State.reset ≠ seq .big) := by decide

/-- PcAndSpChangeOnlyWhenNamed: a step that changes PC by WRITE_DWORD PC, 0x0150, and one that changes SP by a reset. -/
theorem witness_PcAndSpChangeOnlyWhenNamed :
    step (presenting 0x4D000150#32 State.reset) = .next ((State.reset.setRf
        ((State.reset.rf.setSlot 10 0x50#8).setSlot 11 0x01#8)).setResponse (some 0x00000000#32)) ∧
      ((State.reset.rf.setSlot 10 0x50#8).setSlot 11 0x01#8).slot Reg.pc.off ≠ State.reset.rf.slot Reg.pc.off ∧
      step (((seq .little).setRf State.reset.rf).setInputs [.reset .registerFile]) = .next (seq .little) ∧
      (seq .little).rf.slot Reg.sp.off ≠ State.reset.rf.slot Reg.sp.off := ⟨rfl, by decide, rfl, by decide⟩

/-- FlagByteChangesOnlyByItsWriters: a step that changes F. -/
theorem witness_FlagByteChangesOnlyByItsWriters :
    step (presenting 0x250000FF#32 State.reset) =
        .next ((withF 0xFF#8).setResponse (some 0x00000000#32)) ∧
      (withF 0xFF#8).rf.slot 0 ≠ State.reset.rf.slot 0 := ⟨rfl, by decide⟩

/-- StepWithNothingPresentedIdles: nothing is presented at reset. -/
theorem witness_StepWithNothingPresentedIdles : State.reset.inputs = [] := rfl

/-- EqualReadsAreEqualMemories: two memories in canonical form that read alike; one that is not in canonical form is ruled out. -/
theorem witness_EqualReadsAreEqualMemories :
    State.reset.mm.wf = true ∧ (∀ a : Addr, memRead State.reset.mm a = memRead State.reset.mm a) ∧
      (withWram [(0x10, 0x00#8)]).mm.wf = false ∧ (withWram [(0x2000, 0x01#8)]).mm.wf = false :=
  ⟨by decide, fun _ => rfl, by decide, by decide⟩

/-- ResetLoadsTheConfiguration, ResetAgainReloadsItsComponent and ResetMeetsTheInvariant: a legal configuration with its instance, a buffer's last offset, and
each scope presented to a state of that configuration. -/
theorem witness_reset :
    construct (seqConfig .big) = some (seq .big) ∧ (0x7E < segmentSize .hram ∧ 0x7FFF < segmentSize .rom) ∧
      ∀ scope ∈ [ResetScope.registerFile, .memoryMap, .both], ((seq .big).setInputs [.reset scope]).config = seqConfig .big ∧
        ((seq .big).setInputs [.reset scope]).inputs = .reset scope :: [] := by decide

/-- IllegalConfigurationIsRefused and ResetWithIllegalConfigurationIsRefused: an image of eleven bytes, and a reset under it. -/
theorem witness_illegal_configuration :
    let c := { Config.default with initRegs := some (List.replicate 11 0x00#8) }
    construct c = none ∧ (∃ bytes, c.initRegs = some bytes ∧ bytes.length ≠ 12) ∧
      construct { State.reset with config := c, inputs := [.reset .both] }.config = none :=
  ⟨rfl, ⟨_, rfl, by decide⟩, rfl⟩

/-- AssemblerNeverTruncates: the largest literals with the command they give, one above each refused, and a flag list without and
with a repeated flag. -/
theorem witness_AssemblerNeverTruncates :
    assemble (.writeWord .f 0xff) = some (.writeWord .f 0xFF#8) ∧ assemble (.writeWord .f 0x100) = none ∧
      assemble (.writeDword .bc 0xffff) = some (.writeDword .bc 0xFFFF#16) ∧ assemble (.writeDword .bc 0x10000) = none ∧
      assemble (.setFlags (.imm 0xff)) = some (.setFlags 0xFF#8) ∧ assemble (.setFlags (.imm 0x100)) = none ∧
      assemble (.setFlags (.list [.c, .z])) = some (.setFlags 0x90#8) ∧ assemble (.setFlags (.list [.c, .c])) = none ∧
      assemble (.readByte 0xffff) = some (.readByte 0xFFFF#16) ∧ assemble (.readByte 0x10000) = none ∧
      assemble (.writeByte 0xffff 0xff) = some (.writeByte 0xFFFF#16 0xFF#8) ∧ assemble (.writeByte 0x10000 0) = none ∧
      assemble (.writeByte 0 0x100) = none := by decide

end Sys2Proof.Tests
end

section
/-! The state of the CORE (10_state.md): what a command leaves, as functions of the state before it, and the proofs of the
statements on the offset table, the flag byte, the interrupt-enable byte, the two components and the reset contents. -/

namespace Sys2Proof

/-! ### The offset table (10_state.md R23, R25) -/

theorem Reg.exists_size_two_at (i : Fin 12) : ∃ r : Reg, r.size = 2 ∧ (r.off = i ∨ r.offHigh = i) := by
  have table : ∀ i : Fin 12, ∃ r ∈ [Reg.af, .bc, .de, .hl, .sp, .pc], r.size = 2 ∧ (r.off = i ∨ r.offHigh = i) := by
    decide
  obtain ⟨r, -, hr⟩ := table i
  exact ⟨r, hr⟩

theorem Reg.exists_size_one_at {i : Fin 12} (hi : i.val < 8) : ∃ r : Reg, r.size = 1 ∧ r.off = i := by
  have table : ∀ i : Fin 12, i.val < 8 → ∃ r ∈ [Reg.f, .a, .c, .b, .e, .d, .l, .h], r.size = 1 ∧ r.off = i := by
    decide
  obtain ⟨r, -, hr⟩ := table i hi
  exact ⟨r, hr⟩

theorem Reg.eq_of_size_two_at {r q : Reg} {i : Fin 12} (hr : r.size = 2) (hri : r.off = i ∨ r.offHigh = i)
    (hq : q.size = 2) (hqi : q.off = i ∨ q.offHigh = i) : q = r := by
  by_contra hne
  obtain ⟨h1, h2, h3, h4⟩ := Reg.slots_disjoint_of_size_two hq hr hne
  rcases hqi with rfl | rfl <;> rcases hri with h | h
  · exact h1 h.symm
  · exact h2 h.symm
  · exact h3 h.symm
  · exact h4 h.symm

theorem Reg.eq_of_size_one_at {r q : Reg} {i : Fin 12} (hr : r.size = 1) (hri : r.off = i) (hq : q.size = 1)
    (hqi : q.off = i) : q = r := by
  by_contra hne
  exact Reg.off_ne_of_size_one hq hr hne (hqi.trans hri.symm)

theorem Reg.off_lt_eight_of_size_one {r : Reg} (h : r.size = 1) : r.off.val < 8 := by
  revert h; cases r <;> decide

namespace Machine

/-- Settles O9: the table is the definition's own; that a byte belongs to one register only is R25's disjointness. -/
theorem offsetTable : Obligations.OffsetTable := by
  refine ⟨by decide, by decide, by decide, fun i => ?_, fun i hi => ?_, fun i hi q hq hqi => ?_⟩
  · obtain ⟨r, hr, hri⟩ := Reg.exists_size_two_at i
    exact ⟨r, ⟨hr, hri⟩, fun q ⟨hq, hqi⟩ => Reg.eq_of_size_two_at hr hri hq hqi⟩
  · obtain ⟨r, hr, hri⟩ := Reg.exists_size_one_at hi
    exact ⟨r, ⟨hr, hri⟩, fun q ⟨hq, hqi⟩ => Reg.eq_of_size_one_at hr hri hq hqi⟩
  · have hlt := Reg.off_lt_eight_of_size_one hq
    rw [hqi] at hlt
    omega

/-! ### Flag sets (10_state.md R30) -/

theorem memberMask_eq_ite (member : Bool) (f : Flag) : memberMask member f = if member then flagMask f else 0x00#8 := by
  cases member <;> rfl

/-- A flag's mask is one bit, so a byte's high nibble lists the members. -/
theorem StatusFlags.getLsbD_toByte (fs : StatusFlags) :
    fs.toByte.getLsbD 7 = fs.z ∧ fs.toByte.getLsbD 6 = fs.n ∧ fs.toByte.getLsbD 5 = fs.h ∧ fs.toByte.getLsbD 4 = fs.c := by
  obtain ⟨z, n, h, c⟩ := fs
  revert z n h c; decide

theorem StatusFlags.lowNibble_toByte (fs : StatusFlags) : fs.toByte.extractLsb' 0 4 = 0x0#4 :=
  (StatusFlags.toByte_of_ofByte (StatusFlags.ofByte_toByte fs)).2

/-- Settles O19: each member contributes its own mask and nothing else. -/
theorem flagSetAsAByte : Obligations.FlagSetAsAByte := by
  refine ⟨⟨rfl, rfl, rfl, rfl⟩, fun z n h c => ?_⟩
  obtain ⟨hz, hn, hh, hc⟩ := StatusFlags.getLsbD_toByte ⟨z, n, h, c⟩
  refine ⟨?_, hz, hn, hh, hc, StatusFlags.lowNibble_toByte _⟩
  simp only [StatusFlags.toByte, memberMask_eq_ite, flagMask]

/-! ### The interrupt-enable byte (10_state.md R35) -/

theorem locate_ieAddress : locate 0xFFFF#16 = some .ie := rfl

theorem locate_ne_ie {a : Addr} (h : a ≠ 0xFFFF#16) : locate a ≠ some .ie := by
  intro hl
  rcases locate_cases a with ⟨-, -, h'⟩ | ⟨ha, -⟩ | ⟨seg, k, h', -⟩
  · rw [h'] at hl; cases hl
  · exact h (BitVec.eq_of_toNat_eq ha)
  · rw [h'] at hl; cases hl

/-- A store leaves what reads as the byte of another location, or as none. -/
theorem memRead_store_ne (mm : MemoryMap) {loc : Location} {a : Addr} (v : Byte) (h : locate a ≠ some loc) :
    memRead (mm.store loc v) a = memRead mm a := by
  unfold memRead
  cases hl : locate a with
  | none => rfl
  | some loc' => exact congrArg some (MemoryMap.load_store_ne mm v fun e => h (by rw [hl, e]))

theorem exec_writeByte_ie (v : Byte) (s : State) :
    exec (.writeByte 0xFFFF#16 v) s = succeed 0x0000#16 (s.setMm (s.mm.store .ie v)) := by
  simp only [exec, execWriteByte_eq, locate_ieAddress]

theorem exec_readByte_ie (s : State) : exec (.readByte 0xFFFF#16) s = succeed (zext16 s.mm.ie) s := by
  simp only [exec, execReadByte_eq, locate_ieAddress, MemoryMap.load]

/-- Settles O32: 0xFFFF is the location of IE, and no other address is. -/
theorem interruptEnableByteIsPlainStorage : Obligations.InterruptEnableByteIsPlainStorage := by
  intro v s
  refine ⟨exec_writeByte_ie v s, exec_readByte_ie s, fun t ht => ?_⟩
  rw [exec_writeByte_ie] at ht
  obtain ⟨-, -, hmm, -⟩ := succeed_next ht
  rw [hmm]
  exact ⟨rfl, memRead_store_ne s.mm v (locate_ne_ie (by decide))⟩

/-! ### The contents after reset (10_state.md R42 to R44) -/

/-- What is constructed is the configuration with both components loaded from it. -/
theorem construct_eq_some {c : Config} {s : State} (h : construct c = some s) :
    configLegal c = true ∧ s = ⟨c, initialRegisterFile c, initialMemoryMap c, [], none, []⟩ := by
  unfold construct at h
  split at h
  · next hl => exact ⟨hl, (Option.some.inj h).symm⟩
  · cases h

theorem resetSlot_eq_imageByte (c : Config) (i : Fin 12) : resetSlot c i = imageByte c.initRegs i.val := rfl

theorem resetByte_eq_imageByte (c : Config) (seg : Segment) (k : Nat) : resetByte c seg k = imageByte (c.image seg) k := rfl

/-- Settles O53: both components are loaded from the configuration, byte for byte. -/
theorem resetLoadsTheConfiguration : Obligations.ResetLoadsTheConfiguration := by
  intro c s h
  obtain ⟨-, rfl⟩ := construct_eq_some h
  refine ⟨fun i => ?_, fun seg k _ => ?_, rfl, rfl⟩
  · rw [slot_initialRegisterFile, resetSlot_eq_imageByte]
  · rw [buffer_initialMemoryMap, read_initialBuffer, resetByte_eq_imageByte]

/-! ### F holds any byte (10_state.md R31) -/

theorem responseWord_error_ne_ok (e : CommandError) (d d' : Dword) : responseWord (.error e) d ≠ responseWord .ok d' := by
  intro h
  have hs : (Status.error e).code = Status.ok.code := by
    rw [← rspStatus_responseWord (.error e) d, h, rspStatus_responseWord]
  revert hs; cases e <;> decide

theorem RegisterFile.slot_writeWord_self (rf : RegisterFile) (r : Reg) (v : Byte) : (rf.writeWord r v).slot r.off = v :=
  RegisterFile.slot_setSlot_self rf r.off v

theorem RegisterFile.slot_copyWord_self (rf : RegisterFile) (dst src : Reg) :
    (rf.copyWord dst src).slot dst.off = rf.slot src.off :=
  RegisterFile.slot_setSlot_self rf dst.off (rf.slot src.off)

theorem RegisterFile.slot_off_writeDword_combine (endian : Endian) (rf : RegisterFile) (r : Reg) (lo hi : Byte) :
    (rf.writeDword endian r (combine endian lo hi)).slot r.off = lo := by
  rw [RegisterFile.slot_writeDword, if_neg r.offHigh_ne_off, if_pos rfl, split_combine]

theorem RegisterFile.slot_off_copyDword (rf : RegisterFile) (dst src : Reg) :
    (rf.copyDword dst src).slot dst.off = rf.slot src.off := by
  rw [RegisterFile.slot_copyDword, if_neg dst.offHigh_ne_off, if_pos rfl]

/-- The default configuration with a register image that starts F at a byte. -/
def configStartingF (b : Byte) : Config := { Config.default with initRegs := some (b :: List.replicate 11 0x00#8) }

theorem construct_configStartingF (b : Byte) : ∃ s, construct (configStartingF b) = some s ∧ s.rf.slot 0 = b :=
  ⟨_, rfl, slot_initialRegisterFile (configStartingF b) 0⟩

/-- After a SET_FLAGS that answers OK the low nibble of F is zero. -/
theorem lowNibble_of_exec_setFlags_ok {b : Byte} {s t : State} {d : Dword} (h : exec (.setFlags b) s = .next t)
    (hok : t.response = some (responseWord .ok d)) : (t.rf.slot 0).extractLsb' 0 4 = 0x0#4 := by
  simp only [exec, execSetFlags_eq] at h
  split at h
  · next hb =>
    obtain ⟨-, hrf, -⟩ := succeed_next h
    rwa [hrf, State.setRf_rf, RegisterFile.slot_setSlot_self]
  · obtain ⟨-, -, -, -, -, hr⟩ := raise_next h
    exact absurd (Option.some.inj (hr.symm.trans hok)) (responseWord_error_ne_ok _ _ _)

theorem exec_writeWord_of_size_one {r : Reg} (h : r.size = 1) (b : Byte) (s : State) :
    exec (.writeWord r b) s = succeed 0#16 (s.setRf (s.rf.writeWord r b)) := by
  rw [exec, execWriteWord_eq, if_pos h]

theorem exec_writeDword_of_size_two {r : Reg} (h : r.size = 2) (v : Dword) (s : State) :
    exec (.writeDword r v) s = succeed 0#16 (s.setRf (s.rf.writeDword s.config.targetEndian r v)) := by
  rw [exec, execWriteDword_eq, if_pos h]

theorem exec_copyRegister_of_size_one {dst src : Reg} (hd : dst.size = 1) (hs : src.size = 1) (s : State) :
    exec (.copyRegister dst src) s = succeed 0#16 (s.setRf (s.rf.copyWord dst src)) := by
  rw [exec, execCopyRegister_eq, if_pos (hd.trans hs.symm), if_pos hs]

theorem exec_copyRegister_of_size_two {dst src : Reg} (hd : dst.size = 2) (hs : src.size = 2) (s : State) :
    exec (.copyRegister dst src) s = succeed 0#16 (s.setRf (s.rf.copyDword dst src)) := by
  rw [exec, execCopyRegister_eq, if_pos (hd.trans hs.symm), if_neg (by omega)]

theorem exec_getFlags_of_lowNibble_ne {s : State} (h : (s.rf.slot 0).extractLsb' 0 4 ≠ 0x0#4) :
    exec .getFlags s = raise .invalidFlagState s := by
  rw [exec, execGetFlags_eq, if_neg h]

/-- Settles O20: F is slot 0 of the store, which each writer but SET_FLAGS leaves unmasked. -/
theorem fMayHoldAnyByte : Obligations.FMayHoldAnyByte := by
  refine ⟨fun b s => ?_, fun b s => ?_, fun r s hr => ?_, fun r s hr => ?_, fun b => ⟨_, construct_configStartingF b⟩,
    fun s hs => ?_, fun _ _ _ => lowNibble_of_exec_setFlags_ok⟩
  · exact ⟨_, exec_writeWord_of_size_one rfl b s, RegisterFile.slot_writeWord_self s.rf .f b⟩
  · exact ⟨combine s.config.targetEndian b 0x00#8, _, exec_writeDword_of_size_two rfl _ s,
      RegisterFile.slot_off_writeDword_combine _ s.rf .af b _⟩
  · exact ⟨_, exec_copyRegister_of_size_one rfl hr s, RegisterFile.slot_copyWord_self s.rf .f r⟩
  · exact ⟨_, exec_copyRegister_of_size_two rfl hr s, RegisterFile.slot_off_copyDword s.rf .af r⟩
  · exact ⟨_, exec_getFlags_of_lowNibble_ne hs, rfl, rfl⟩

/-! ### What a command leaves, as a function of the state before it (10_state.md R41) -/

/-- The register store a successful command leaves (the effects of 40_register_file.md R111 to R117). -/
def resultRf (s : State) : Instr → RegisterFile
  | .writeWord r b => s.rf.writeWord r b
  | .writeDword r v => s.rf.writeDword s.config.targetEndian r v
  | .copyRegister dst src => if src.size = 1 then s.rf.copyWord dst src else s.rf.copyDword dst src
  | .setFlags b => s.rf.setSlot 0 b
  | .readWord _ | .readDword _ | .getFlags | .readByte _ | .writeByte _ _ => s.rf

/-- The memory map a successful command leaves (the effects of 41_memory_map.md R151 and R152). -/
def resultMm (s : State) : Instr → MemoryMap
  | .writeByte a b => (memWrite s.mm a b).getD s.mm
  | .readWord _ | .writeWord _ _ | .readDword _ | .writeDword _ _ | .copyRegister _ _ | .getFlags | .setFlags _
  | .readByte _ => s.mm

/-- The state a command leaves: after its error where it raises one, and after its effect otherwise. -/
def stateAfter (s : State) (i : Instr) : State :=
  match commandError s i with
  | some e => s.afterError e
  | none => ((s.setRf (resultRf s i)).setMm (resultMm s i)).setResponse (some (responseWord .ok (resultData s i)))

theorem inGap_iff_locate_eq_none (a : Addr) : inGap a ↔ locate a = none := (locate_eq_none_iff a).symm

/-- `exec` as one function: a command raises the error its rule names, or has its effect. -/
theorem exec_eq_stateAfter (i : Instr) (s : State) : exec i s = .next (stateAfter s i) := by
  cases i with
  | readWord r =>
    rcases r.size_eq with h | h <;> simp only [exec, execReadWord_eq, stateAfter, commandError, h] <;> rfl
  | writeWord r b =>
    rcases r.size_eq with h | h <;> simp only [exec, execWriteWord_eq, stateAfter, commandError, h] <;> rfl
  | readDword r =>
    rcases r.size_eq with h | h <;> simp only [exec, execReadDword_eq, stateAfter, commandError, h] <;> rfl
  | writeDword r v =>
    rcases r.size_eq with h | h <;> simp only [exec, execWriteDword_eq, stateAfter, commandError, h] <;> rfl
  | copyRegister dst src =>
    by_cases h : dst.size = src.size
    · rcases src.size_eq with h1 | h1 <;>
        simp only [exec, execCopyRegister_eq, stateAfter, commandError, resultRf, h, h1] <;> rfl
    · simp only [exec, execCopyRegister_eq, stateAfter, commandError, h]; rfl
  | getFlags =>
    by_cases h : (s.rf.slot 0).extractLsb' 0 4 = 0#4 <;>
      simp only [exec, execGetFlags_eq, stateAfter, commandError, h] <;> rfl
  | setFlags b =>
    by_cases h : b.extractLsb' 0 4 = 0#4 <;> simp only [exec, execSetFlags_eq, stateAfter, commandError, h] <;> rfl
  | readByte a =>
    cases hl : locate a <;>
      simp only [exec, execReadByte_eq, stateAfter, commandError, resultData, inGap_iff_locate_eq_none, hl] <;> rfl
  | writeByte a b =>
    cases hl : locate a <;>
      simp only [exec, execWriteByte_eq, stateAfter, commandError, resultMm, memWrite, inGap_iff_locate_eq_none, hl] <;> rfl

theorem stateAfter_rf (s : State) (i : Instr) :
    (stateAfter s i).rf = (commandError s i).elim (resultRf s i) fun _ => s.rf := by
  unfold stateAfter
  cases commandError s i <;> rfl

theorem stateAfter_mm (s : State) (i : Instr) :
    (stateAfter s i).mm = (commandError s i).elim (resultMm s i) fun _ => s.mm := by
  unfold stateAfter
  cases commandError s i <;> rfl

theorem stateAfter_response (s : State) (i : Instr) :
    (stateAfter s i).response = some ((commandError s i).elim (responseWord .ok (resultData s i))
      fun e => responseWord (.error e) 0#16) := by
  unfold stateAfter
  cases commandError s i <;> rfl

/-! ### The components share no state (10_state.md R41) -/

theorem resultMm_of_registerFileCommand {i : Instr} (h : isRegisterFileCommand i = true) (s : State) :
    resultMm s i = s.mm := by
  cases i with
  | writeByte => cases h
  | _ => rfl

theorem resultRf_of_memoryMapCommand {i : Instr} (h : isRegisterFileCommand i = false) (s : State) :
    resultRf s i = s.rf := by
  cases i with
  | readByte | writeByte => rfl
  | _ => cases h

theorem stateAfter_mm_of_registerFileCommand {i : Instr} (h : isRegisterFileCommand i = true) (s : State) :
    (stateAfter s i).mm = s.mm := by
  rw [stateAfter_mm, resultMm_of_registerFileCommand h]
  cases commandError s i <;> rfl

theorem stateAfter_rf_of_memoryMapCommand {i : Instr} (h : isRegisterFileCommand i = false) (s : State) :
    (stateAfter s i).rf = s.rf := by
  rw [stateAfter_rf, resultRf_of_memoryMapCommand h]
  cases commandError s i <;> rfl

/-- What a register-file command reads: the register store and the byte order. -/
theorem results_eq_of_registerFileCommand {i : Instr} (h : isRegisterFileCommand i = true) {s s' : State}
    (hrf : s.rf = s'.rf) (hc : s.config = s'.config) :
    commandError s i = commandError s' i ∧ resultData s i = resultData s' i ∧ resultRf s i = resultRf s' i := by
  cases i with
  | readByte | writeByte => cases h
  | _ => simp only [commandError, resultData, resultRf, hrf, hc, and_self]

/-- What a memory-map command reads: the memory map. -/
theorem results_eq_of_memoryMapCommand {i : Instr} (h : isRegisterFileCommand i = false) {s s' : State}
    (hmm : s.mm = s'.mm) :
    commandError s i = commandError s' i ∧ resultData s i = resultData s' i ∧ resultMm s i = resultMm s' i := by
  cases i with
  | readByte | writeByte => simp only [commandError, resultData, resultMm, hmm, and_self]
  | _ => cases h

/-- Settles O41: what a command leaves of its own component, and its response, are functions of what it reads. -/
theorem componentsShareNoState : Obligations.ComponentsShareNoState := by
  intro i s s'
  refine ⟨_, _, exec_eq_stateAfter i s, exec_eq_stateAfter i s', fun h => ?_, fun h => ?_⟩
  · refine ⟨stateAfter_mm_of_registerFileCommand h s, fun hrf hc => ?_⟩
    obtain ⟨he, hd, hr⟩ := results_eq_of_registerFileCommand h hrf hc
    simp only [stateAfter_rf, stateAfter_response, he, hd, hr, hrf, and_self]
  · refine ⟨stateAfter_rf_of_memoryMapCommand h s, fun hmm => ?_⟩
    obtain ⟨he, hd, hm⟩ := results_eq_of_memoryMapCommand h hmm
    simp only [stateAfter_mm, stateAfter_response, he, hd, hm, hmm, and_self]

end Machine

end Sys2Proof
end

section
/-! Memory and byte order (20_memory.md R50, R59, R62, R64): reads and writes at mapped addresses and in the gap, what every command
leaves unchanged, and that repeating a command changes nothing. -/

namespace Sys2Proof.Machine

/-! ### Byte order (20_memory.md R50) -/

theorem toNat_byte_append (high low : Byte) : (high ++ low : Dword).toNat = high.toNat * 256 + low.toNat := by
  rw [BitVec.toNat_append, ← Nat.shiftLeft_add_eq_or_of_lt low.isLt, Nat.shiftLeft_eq]

/-- Settles O10: `combine` appends the low byte to the high one, and TARGET_ENDIAN says which slot is which. -/
theorem combineByEndianness : Obligations.CombineByEndianness :=
  ⟨fun loSlot hiSlot => ⟨toNat_byte_append hiSlot loSlot, toNat_byte_append loSlot hiSlot⟩,
    fun rf r _ => ⟨toNat_byte_append (rf.slot r.offHigh) (rf.slot r.off),
      toNat_byte_append (rf.slot r.off) (rf.slot r.offHigh)⟩⟩

/-! ### The gap (20_memory.md R64) -/

theorem exec_readByte_of_inGap {a : Addr} (h : inGap a) (s : State) :
    exec (.readByte a) s = raise .unmappedAddress s := by
  simp only [exec, execReadByte_eq, (inGap_iff_locate_eq_none a).mp h]

theorem exec_writeByte_of_inGap {a : Addr} (h : inGap a) (v : Byte) (s : State) :
    exec (.writeByte a v) s = raise .unmappedAddress s := by
  simp only [exec, execWriteByte_eq, (inGap_iff_locate_eq_none a).mp h]

/-- Settles O28: a gap address has no location, so both commands raise. -/
theorem gapAccessFails : Obligations.GapAccessFails := by
  intro a v s hgap i hi
  rcases List.mem_pair.mp hi with rfl | rfl
  · exact exec_readByte_of_inGap hgap s
  · exact exec_writeByte_of_inGap hgap v s

/-! ### Mapped addresses (20_memory.md R62) -/

theorem exists_locate_of_not_inGap {a : Addr} (h : ¬ inGap a) : ∃ loc, locate a = some loc :=
  Option.ne_none_iff_exists'.mp fun hl => h ((inGap_iff_locate_eq_none a).mpr hl)

theorem locate_of_le_romEnd {a : Addr} (h : a.toNat ≤ 0x7FFF) : locate a = some (.byte .rom a.toNat) := by
  simp only [locate]
  rw [if_neg (by omega), if_pos h]

theorem memRead_of_locate {a : Addr} {loc : Location} (h : locate a = some loc) (mm : MemoryMap) :
    memRead mm a = some (mm.load loc) := by
  rw [memRead, h, Option.map_some]

theorem memRead_store_self {a : Addr} {loc : Location} (h : locate a = some loc) {mm : MemoryMap} (hm : mm.wf = true)
    (v : Byte) : memRead (mm.store loc v) a = some v := by
  rw [memRead_of_locate h, MemoryMap.load_store_self hm]

theorem exec_readByte_of_memRead {a : Addr} {b : Byte} {s : State} (h : memRead s.mm a = some b) :
    exec (.readByte a) s = succeed (zext16 b) s := by
  obtain ⟨loc, hl, rfl⟩ := Option.map_eq_some_iff.mp h
  simp only [exec, execReadByte_eq, hl]

theorem exec_writeByte_of_locate {a : Addr} {loc : Location} (h : locate a = some loc) (v : Byte) (s : State) :
    exec (.writeByte a v) s = succeed 0#16 (s.setMm (s.mm.store loc v)) := by
  simp only [exec, execWriteByte_eq, h]

/-- Settles O29: an address outside the gap has a location, and a store to a location is read back. -/
theorem everyMappedAddressIsWritable : Obligations.EveryMappedAddressIsWritable := by
  intro a v s hwf hgap
  obtain ⟨loc, hl⟩ := exists_locate_of_not_inGap hgap
  refine ⟨_, _, exec_writeByte_of_locate hl v s, rfl, exec_readByte_of_memRead (memRead_store_self hl hwf v), rfl,
    fun hrom => ?_⟩
  obtain rfl : loc = .byte .rom a.toNat := Option.some.inj (hl.symm.trans (locate_of_le_romEnd hrom))
  exact MemoryMap.load_store_self hwf (.byte .rom a.toNat) v

/-! ### What every command leaves unchanged (20_memory.md R59) -/

/-- The frame of `exec`: outside its footprint a command leaves the registers, and only WRITE_BYTE stores to memory. -/
theorem exec_frame {i : Instr} {s t : State} (h : exec i s = .next t) :
    t.config = s.config ∧ (∀ j, j ∉ writtenSlots i → t.rf.slot j = s.rf.slot j) ∧
      (t.mm = s.mm ∨ ∃ a v loc, i = .writeByte a v ∧ locate a = some loc ∧ t.mm = s.mm.store loc v) := by
  rcases exec_cases i s with ⟨e, -, -, he⟩ | ⟨-, rf, mm, he, hrf, -, hwrite, hmm⟩
  · obtain rfl : _ = t := Host.Outcome.next.inj (he.symm.trans h)
    exact ⟨rfl, fun _ _ => rfl, .inl rfl⟩
  · obtain rfl : _ = t := Host.Outcome.next.inj (he.symm.trans h)
    refine ⟨rfl, hrf, ?_⟩
    by_cases hi : ∃ a v, i = .writeByte a v
    · obtain ⟨a, v, rfl⟩ := hi
      obtain ⟨loc, hl, hst⟩ := hwrite a v rfl
      exact .inr ⟨a, v, loc, rfl, hl, hst⟩
    · exact .inl (hmm fun a v e => hi ⟨a, v, e⟩)

theorem writtenSlots_of_not_write {i : Instr} (hw : ∀ r b, i ≠ .writeWord r b) (hd : ∀ r v, i ≠ .writeDword r v)
    (hc : ∀ dst src, i ≠ .copyRegister dst src) (hf : ∀ b, i ≠ .setFlags b) : writtenSlots i = [] := by
  cases i with
  | writeWord r b => exact absurd rfl (hw r b)
  | writeDword r v => exact absurd rfl (hd r v)
  | copyRegister dst src => exact absurd rfl (hc dst src)
  | setFlags b => exact absurd rfl (hf b)
  | _ => rfl

theorem exec_of_no_writtenSlots {i : Instr} {s t : State} (hslots : writtenSlots i = [])
    (hb : ∀ a b, i ≠ .writeByte a b) (h : exec i s = .next t) : t.rf = s.rf ∧ t.mm = s.mm ∧ t.config = s.config := by
  obtain ⟨hc, hrf, hmm⟩ := exec_frame h
  refine ⟨RegisterFile.ext_slot fun j => hrf j (by simp [hslots]), ?_, hc⟩
  rcases hmm with hmm | ⟨a, v, _, hi, -⟩
  · exact hmm
  · exact absurd hi (hb a v)

theorem memRead_exec_frame {i : Instr} {s t : State} (h : exec i s = .next t) {a : Addr}
    (ha : ∀ b v, i = .writeByte b v → locate a ≠ locate b) : memRead t.mm a = memRead s.mm a := by
  obtain ⟨-, -, hmm | ⟨b, v, loc, hi, hl, hmm⟩⟩ := exec_frame h
  · rw [hmm]
  · rw [hmm, memRead_store_ne s.mm v (hl ▸ ha b v hi)]

/-! ### Writing what is already stored changes nothing -/

theorem Memory.write_of_read_eq {size k : Nat} {m : Memory} {v : Byte} (hm : m.wf size = true) (hk : k < size)
    (h : Memory.read m k = v) : Memory.write m k v = m := by
  refine Memory.ext_read_from (Memory.write_wf v hm hk) hm fun j _ => ?_
  by_cases hj : j = k
  · rw [hj, Memory.read_write_self v hm, h]
  · exact Memory.read_write_ne m v hj

@[simp] theorem MemoryMap.setBuffer_buffer (mm : MemoryMap) (seg : Segment) : mm.setBuffer seg (mm.buffer seg) = mm := by
  cases seg <;> rfl

theorem MemoryMap.store_of_load_eq {mm : MemoryMap} (hm : mm.wf = true) {loc : Location} (hl : loc.valid) {v : Byte}
    (h : mm.load loc = v) : mm.store loc v = mm := by
  cases loc with
  | ie => subst h; rfl
  | byte seg k =>
    rw [MemoryMap.store, Memory.write_of_read_eq ((MemoryMap.wf_iff mm).mp hm seg) hl h, MemoryMap.setBuffer_buffer]

theorem MemoryMap.store_store_self {mm : MemoryMap} (hm : mm.wf = true) {loc : Location} (hl : loc.valid) (v : Byte) :
    (mm.store loc v).store loc v = mm.store loc v :=
  MemoryMap.store_of_load_eq (MemoryMap.store_wf hm hl v) hl (MemoryMap.load_store_self hm loc v)

@[simp] theorem RegisterFile.setSlot_setSlot_self (rf : RegisterFile) (i : Fin 12) (v : Byte) :
    (rf.setSlot i v).setSlot i v = rf.setSlot i v := by
  apply RegisterFile.ext_slot
  intro j
  simp only [RegisterFile.slot_setSlot]
  split <;> rfl

/-! ### A register write repeated changes nothing more -/

theorem RegisterFile.writeDword_writeDword (endian : Endian) (rf : RegisterFile) (r : Reg) (v : Dword) :
    (rf.writeDword endian r v).writeDword endian r v = rf.writeDword endian r v := by
  apply RegisterFile.ext_slot
  intro j
  simp only [RegisterFile.slot_writeDword]
  split_ifs <;> rfl

theorem RegisterFile.slot_copyWord_src (rf : RegisterFile) (dst src : Reg) :
    (rf.copyWord dst src).slot src.off = rf.slot src.off := by
  rw [RegisterFile.copyWord, RegisterFile.slot_setSlot, ite_self]

theorem RegisterFile.copyWord_copyWord (rf : RegisterFile) (dst src : Reg) :
    (rf.copyWord dst src).copyWord dst src = rf.copyWord dst src := by
  rw [RegisterFile.copyWord, RegisterFile.slot_copyWord_src, RegisterFile.copyWord, RegisterFile.setSlot_setSlot_self]

/-- A 16-bit copy leaves its source: the two registers are the same or share no slot (10_state.md R25). -/
theorem RegisterFile.slot_copyDword_src (rf : RegisterFile) {dst src : Reg} (hd : dst.size = 2) (hs : src.size = 2) :
    (rf.copyDword dst src).slot src.off = rf.slot src.off ∧
      (rf.copyDword dst src).slot src.offHigh = rf.slot src.offHigh := by
  simp only [RegisterFile.slot_copyDword]
  by_cases h : dst = src
  · subst h
    exact ⟨by rw [if_neg dst.offHigh_ne_off, if_pos rfl], if_pos rfl⟩
  · obtain ⟨h1, h2, h3, h4⟩ := Reg.slots_disjoint_of_size_two hd hs h
    exact ⟨by rw [if_neg h3, if_neg h1], by rw [if_neg h4, if_neg h2]⟩

theorem RegisterFile.copyDword_copyDword (rf : RegisterFile) {dst src : Reg} (hd : dst.size = 2) (hs : src.size = 2) :
    (rf.copyDword dst src).copyDword dst src = rf.copyDword dst src := by
  obtain ⟨hlow, hhigh⟩ := RegisterFile.slot_copyDword_src rf hd hs
  rw [RegisterFile.copyDword, hlow, hhigh]
  apply RegisterFile.ext_slot
  intro j
  simp only [RegisterFile.slot_setSlot, RegisterFile.slot_copyDword]
  split_ifs <;> rfl

/-! ### Every command is idempotent (20_memory.md R59) -/

/-- A successful command's effect on the registers is in place after it. -/
theorem resultRf_of_rf_eq {i : Instr} {s t : State} (hok : commandError s i = none) (hc : t.config = s.config)
    (hrf : t.rf = resultRf s i) : resultRf t i = t.rf := by
  cases i with
  | writeWord r b => simp only [resultRf, RegisterFile.writeWord, hrf, RegisterFile.setSlot_setSlot_self]
  | writeDword r v => simp only [resultRf, hc, hrf, RegisterFile.writeDword_writeDword]
  | copyRegister dst src =>
    have hsize : dst.size = src.size := by
      by_contra hne
      simp [commandError, hne] at hok
    rcases src.size_eq with h | h
    · simp only [resultRf, h, if_true] at hrf ⊢
      rw [hrf, RegisterFile.copyWord_copyWord]
    · simp only [resultRf, h, OfNat.ofNat_ne_one, if_false] at hrf ⊢
      rw [hrf, RegisterFile.copyDword_copyDword s.rf (hsize.trans h) h]
  | setFlags b => simp only [resultRf, hrf, RegisterFile.setSlot_setSlot_self]
  | readWord | readDword | getFlags | readByte | writeByte => rfl

/-- A command's effect on the memory map is in place after it. -/
theorem resultMm_of_mm_eq {i : Instr} {s t : State} (hwf : s.mm.wf = true) (hmm : t.mm = resultMm s i) :
    resultMm t i = t.mm := by
  cases i with
  | writeByte a b =>
    simp only [resultMm, memWrite] at hmm ⊢
    cases hl : locate a with
    | none => rfl
    | some loc =>
      rw [hl] at hmm
      rw [hmm]
      exact MemoryMap.store_store_self hwf (locate_valid hl) b
  | _ => rfl

/-- Nothing that a command writes decides its answer: the reading commands write nothing, the others answer 0. -/
theorem answer_stateAfter (i : Instr) (s : State) :
    commandError (stateAfter s i) i = commandError s i ∧ resultData (stateAfter s i) i = resultData s i := by
  have unchanged := fun hslots hb => exec_of_no_writtenSlots hslots hb (exec_eq_stateAfter i s)
  cases i with
  | readWord | readDword | getFlags | readByte =>
    obtain ⟨hrf, hmm, hc⟩ := unchanged rfl (fun _ _ => Instr.noConfusion)
    simp only [commandError, resultData, hrf, hmm, hc, and_self]
  | writeWord | writeDword | copyRegister | setFlags | writeByte => exact ⟨rfl, rfl⟩

theorem stateAfter_config (s : State) (i : Instr) : (stateAfter s i).config = s.config :=
  (exec_frame (exec_eq_stateAfter i s)).1

theorem stateAfter_stateAfter_rf (s : State) (i : Instr) : (stateAfter (stateAfter s i) i).rf = (stateAfter s i).rf := by
  rw [stateAfter_rf (stateAfter s i), (answer_stateAfter i s).1]
  cases he : commandError s i with
  | some e => rfl
  | none => exact resultRf_of_rf_eq he (stateAfter_config s i) (by rw [stateAfter_rf, he, Option.elim_none])

theorem stateAfter_stateAfter_mm {s : State} (hwf : s.mm.wf = true) (i : Instr) :
    (stateAfter (stateAfter s i) i).mm = (stateAfter s i).mm := by
  rw [stateAfter_mm (stateAfter s i), (answer_stateAfter i s).1]
  cases he : commandError s i with
  | some e => rfl
  | none => exact resultMm_of_mm_eq hwf (by rw [stateAfter_mm, he, Option.elim_none])

theorem stateAfter_stateAfter_response (s : State) (i : Instr) :
    (stateAfter (stateAfter s i) i).response = (stateAfter s i).response := by
  obtain ⟨he, hd⟩ := answer_stateAfter i s
  rw [stateAfter_response (stateAfter s i), he, hd, stateAfter_response s]

theorem exec_idempotent {i : Instr} {s t : State} (hwf : s.mm.wf = true) (h : exec i s = .next t) :
    ∃ u, exec i t = .next u ∧ u.rf = t.rf ∧ u.mm = t.mm ∧ u.response = t.response := by
  obtain rfl : stateAfter s i = t := Host.Outcome.next.inj ((exec_eq_stateAfter i s).symm.trans h)
  exact ⟨_, exec_eq_stateAfter i _, stateAfter_stateAfter_rf s i, stateAfter_stateAfter_mm hwf i,
    stateAfter_stateAfter_response s i⟩

/-! ### What a successful command answers, and what memory holds after construction (10_state.md R43) -/

theorem stateAfter_response_of_ok {s : State} {i : Instr} (hok : commandError s i = none) :
    (stateAfter s i).response = some (responseWord .ok (resultData s i)) := by
  rw [stateAfter_response, hok, Option.elim_none]

theorem commandError_readWord_of_size_one {r : Reg} (h : r.size = 1) (s : State) :
    commandError s (.readWord r) = none := if_neg (by omega)

theorem commandError_readDword_of_size_two {r : Reg} (h : r.size = 2) (s : State) :
    commandError s (.readDword r) = none := if_neg (by omega)

theorem load_initialMemoryMap (c : Config) (seg : Segment) (k : Nat) :
    (initialMemoryMap c).load (.byte seg k) = resetByte c seg k := by
  rw [MemoryMap.load, buffer_initialMemoryMap, read_initialBuffer, resetByte_eq_imageByte]

/-- Settles O40: a read has no footprint, a write stays inside its own, and a repeated write stores what is there already. -/
theorem accessesHaveNoSideEffectAndAreIdempotent : Obligations.AccessesHaveNoSideEffectAndAreIdempotent := by
  refine ⟨fun i s t hw hd hc hf hb h => exec_of_no_writtenSlots (writtenSlots_of_not_write hw hd hc hf) hb h,
    fun i s t h => have ⟨_, hrf, _⟩ := exec_frame h; ⟨hrf, fun a => memRead_exec_frame h⟩, fun i s t => exec_idempotent,
    fun a b s h => ⟨_, exec_readByte_of_memRead h, rfl⟩, fun r s => ?_, fun a v s hwf hgap => ?_, fun c s a h => ?_⟩
  · exact ⟨_, _, exec_eq_stateAfter (.readWord r) s, exec_eq_stateAfter (.readDword r) s,
      fun h => stateAfter_response_of_ok (commandError_readWord_of_size_one h s),
      fun h => stateAfter_response_of_ok (commandError_readDword_of_size_two h s)⟩
  · obtain ⟨loc, hl⟩ := exists_locate_of_not_inGap hgap
    exact ⟨_, exec_writeByte_of_locate hl v s, memRead_store_self hl hwf v⟩
  · obtain ⟨-, rfl⟩ := construct_eq_some h
    refine congrArg (Option.map · (locate a)) (funext fun loc => ?_)
    cases loc with
    | ie => rfl
    | byte seg k => exact load_initialMemoryMap c seg k

end Sys2Proof.Machine
end

section
/-! Encoding (30_encoding.md R81 to R91): which words are commands, which are illegal, and how every word is answered. -/

namespace Sys2Proof

/-! ### Masked words, field by field (R81, R82) -/

@[simp] theorem nibble_and_ones (x : BitVec 4) : x &&& 0xF#4 = x := BitVec.and_allOnes

@[simp] theorem byte_and_ones (x : Byte) : x &&& 0xFF#8 = x := BitVec.and_allOnes

theorem word_eq_iff_fields (w v : CmdWord) :
    w = v ↔ opField w = opField v ∧ raField w = raField v ∧ rbField w = rbField v ∧ z4Field w = z4Field v ∧
      dhField w = dhField v ∧ dlField w = dlField v := by
  refine ⟨fun h => by simp only [h, and_self], fun ⟨hop, hra, hrb, hz, hdh, hdl⟩ => ?_⟩
  simp only [opField, raField, rbField, z4Field, dhField, dlField, ← BitVec.toNat_inj, BitVec.extractLsb'_toNat,
    Nat.shiftRight_eq_div_pow] at hop hra hrb hz hdh hdl ⊢
  omega

/-- A mask test is one test per field. Format R's fields serve format M too: its Z4 is RA, its DATA is DL, and no row masks
ADDR. -/
theorem and_eq_iff_fields (w mask value : CmdWord) :
    w &&& mask = value ↔
      opField w &&& opField mask = opField value ∧ raField w &&& raField mask = raField value ∧
      rbField w &&& rbField mask = rbField value ∧ z4Field w &&& z4Field mask = z4Field value ∧
      dhField w &&& dhField mask = dhField value ∧ dlField w &&& dlField mask = dlField value := by
  rw [word_eq_iff_fields]
  simp only [opField, raField, rbField, z4Field, dhField, dlField, BitVec.extractLsb'_and]

/-! ### A row is an opcode, must-be-zero bits and operands (R83, R85, R86) -/

/-- The opcode of a command (R83). -/
def Instr.opcode : Instr → BitVec 4
  | .readWord _ => 0x1#4
  | .writeWord _ _ => 0x2#4
  | .readDword _ => 0x3#4
  | .writeDword _ _ => 0x4#4
  | .copyRegister _ _ => 0x5#4
  | .getFlags => 0x6#4
  | .setFlags _ => 0x7#4
  | .readByte _ => 0x8#4
  | .writeByte _ _ => 0x9#4

/-- The must-be-zero bits of an opcode's row (R86); an unassigned opcode has none. -/
def zeroMask : BitVec 4 → CmdWord
  | 0x1#4 | 0x3#4 => 0x00FFFFFF#32
  | 0x2#4 => 0x00FFFF00#32
  | 0x4#4 => 0x00FF0000#32
  | 0x5#4 => 0x000FFFFF#32
  | 0x6#4 => 0x0FFFFFFF#32
  | 0x7#4 => 0x0FFFFF00#32
  | 0x8#4 => 0x0F0000FF#32
  | 0x9#4 => 0x0F000000#32
  | _ => 0#32

/-- The operands of the command are what the word's fields hold (R85). -/
def Instr.operandsIn (w : CmdWord) : Instr → Prop
  | .readWord r | .readDword r => Reg.ofCode (raField w) = some r
  | .writeWord r b => Reg.ofCode (raField w) = some r ∧ dlField w = b
  | .writeDword r v => Reg.ofCode (raField w) = some r ∧ imm16Field w = v
  | .copyRegister dst src => Reg.ofCode (raField w) = some dst ∧ Reg.ofCode (rbField w) = some src
  | .getFlags => True
  | .setFlags b => dlField w = b
  | .readByte a => addrField w = a
  | .writeByte a b => addrField w = a ∧ dataField w = b

theorem and_row_mask_eq_iff (i : Instr) (w : CmdWord) :
    w &&& i.row.mask = i.row.value ↔ opField w = i.opcode ∧ w &&& zeroMask i.opcode = 0#32 := by
  cases i <;> simp [Instr.row, Instr.opcode, zeroMask, and_eq_iff_fields, opField, raField, rbField, z4Field, dhField,
    dlField]

/-! ### What decodes (R86) -/

theorem opField_of_decode {i : Instr} {w : CmdWord} (h : decode w = .ok i) : opField w = i.opcode := by
  unfold decode at h
  split at h <;> simp only [requireZero_eq_ok, withReg_eq_ok, reduceCtorEq] at h
  case h_1 hop | h_2 hop | h_3 hop | h_4 hop =>
    obtain ⟨-, r, -, ⟨⟩⟩ := h
    exact BitVec.eq_of_toNat_eq hop
  case h_5 hop =>
    obtain ⟨-, dst, -, src, -, ⟨⟩⟩ := h
    exact BitVec.eq_of_toNat_eq hop
  case h_6 hop | h_7 hop | h_8 hop | h_9 hop =>
    obtain ⟨-, ⟨⟩⟩ := h
    exact BitVec.eq_of_toNat_eq hop

theorem decode_eq_ok_iff_of_opField {i : Instr} {w : CmdWord} (h : opField w = i.opcode) :
    decode w = .ok i ↔ w &&& zeroMask i.opcode = 0#32 ∧ i.operandsIn w := by
  rw [decode, h]
  cases i <;> simp [Instr.opcode, zeroMask, and_eq_iff_fields, withReg_eq_ok, Instr.operandsIn, opField, raField, rbField,
    z4Field, dhField, dlField, z4MField, dataField, and_assoc]

/-- R86 for all nine commands at once: a word decodes to a command exactly when it belongs to the command's row and spells its
operands. -/
theorem decode_eq_ok_iff (i : Instr) (w : CmdWord) :
    decode w = .ok i ↔ w &&& i.row.mask = i.row.value ∧ i.operandsIn w := by
  rw [and_row_mask_eq_iff, and_assoc]
  constructor
  · intro h
    have hop := opField_of_decode h
    exact ⟨hop, (decode_eq_ok_iff_of_opField hop).mp h⟩
  · rintro ⟨hop, h⟩
    exact (decode_eq_ok_iff_of_opField hop).mpr h

/-! ### What does not decode (R87) -/

/-- A word is legal when its must-be-zero bits are zero and its fields spell the operands of a command of its opcode. -/
theorem exists_decode_eq_ok_iff (w : CmdWord) :
    (∃ i, decode w = .ok i) ↔
      w &&& zeroMask (opField w) = 0#32 ∧ ∃ i : Instr, opField w = i.opcode ∧ i.operandsIn w := by
  simp only [decode_eq_ok_iff, and_row_mask_eq_iff]
  constructor
  · rintro ⟨i, ⟨hop, hz⟩, ho⟩
    exact ⟨hop ▸ hz, i, hop, ho⟩
  · rintro ⟨hz, i, hop, ho⟩
    exact ⟨i, ⟨hop, hop ▸ hz⟩, ho⟩

theorem Reg.exists_ofCode_eq_some_iff (c : BitVec 4) : (∃ r, Reg.ofCode c = some r) ↔ c.toNat < 0xE := by
  rw [← Option.isSome_iff_exists]
  revert c; decide

theorem Instr.exists_iff (p : Instr → Prop) :
    (∃ i, p i) ↔ (∃ r, p (.readWord r)) ∨ (∃ r b, p (.writeWord r b)) ∨ (∃ r, p (.readDword r)) ∨
      (∃ r v, p (.writeDword r v)) ∨ (∃ dst src, p (.copyRegister dst src)) ∨ p .getFlags ∨
      (∃ b, p (.setFlags b)) ∨ (∃ a, p (.readByte a)) ∨ (∃ a b, p (.writeByte a b)) := by
  constructor
  · rintro ⟨i, h⟩
    cases i <;> grind
  · grind

/-- R87's first two cases: no command has the word's opcode, or a register field that the opcode uses names no register. -/
theorem not_exists_operandsIn_iff (w : CmdWord) :
    (¬ ∃ i : Instr, opField w = i.opcode ∧ i.operandsIn w) ↔
      (opField w = 0x0#4 ∨ 0xA ≤ (opField w).toNat) ∨
      ((1 ≤ (opField w).toNat ∧ (opField w).toNat ≤ 4 ∧ 0xE ≤ (raField w).toNat) ∨
        (opField w = 0x5#4 ∧ (0xE ≤ (raField w).toNat ∨ 0xE ≤ (rbField w).toNat))) := by
  simp only [Instr.exists_iff, Instr.opcode, Instr.operandsIn, exists_and_left, exists_and_right, exists_eq', and_true,
    Reg.exists_ofCode_eq_some_iff]
  bv_omega

/-- R87's third case, opcode by opcode. -/
theorem and_zeroMask_ne_zero_iff (w : CmdWord) (op : BitVec 4) :
    w &&& zeroMask op ≠ 0#32 ↔
      (op = 0x1#4 ∧ w &&& 0x00FFFFFF#32 ≠ 0#32) ∨ (op = 0x2#4 ∧ w &&& 0x00FFFF00#32 ≠ 0#32) ∨
      (op = 0x3#4 ∧ w &&& 0x00FFFFFF#32 ≠ 0#32) ∨ (op = 0x4#4 ∧ w &&& 0x00FF0000#32 ≠ 0#32) ∨
      (op = 0x5#4 ∧ w &&& 0x000FFFFF#32 ≠ 0#32) ∨ (op = 0x6#4 ∧ w &&& 0x0FFFFFFF#32 ≠ 0#32) ∨
      (op = 0x7#4 ∧ w &&& 0x0FFFFF00#32 ≠ 0#32) ∨ (op = 0x8#4 ∧ w &&& 0x0F0000FF#32 ≠ 0#32) ∨
      (op = 0x9#4 ∧ w &&& 0x0F000000#32 ≠ 0#32) := by
  unfold zeroMask
  split <;> simp_all

namespace Machine

theorem exec_setFlags_of_lowNibble_ne {b : Byte} (h : b.extractLsb' 0 4 ≠ 0x0#4) (s : State) :
    exec (.setFlags b) s = raise .invalidFlagState s := by
  rw [exec, execSetFlags_eq, if_neg h]

/-- Settles O3: each row's clause is `decode_eq_ok_iff` at its command; the low nibble of SET_FLAGS is checked only
when it runs. -/
theorem commandsAreExactlyTheTableRows : Obligations.CommandsAreExactlyTheTableRows := by
  intro w
  refine ⟨fun r => decode_eq_ok_iff (.readWord r) w, fun r b => decode_eq_ok_iff (.writeWord r b) w,
    fun r => decode_eq_ok_iff (.readDword r) w, fun r v => decode_eq_ok_iff (.writeDword r v) w,
    fun dst src => decode_eq_ok_iff (.copyRegister dst src) w,
    (decode_eq_ok_iff .getFlags w).trans (and_iff_left trivial), fun b => decode_eq_ok_iff (.setFlags b) w,
    fun b s hdec hlow => ?_, fun a => decode_eq_ok_iff (.readByte a) w,
    fun a b => decode_eq_ok_iff (.writeByte a b) w⟩
  obtain ⟨-, rfl⟩ := (decode_eq_ok_iff (.setFlags b) w).mp hdec
  have hnibble : (dlField w).extractLsb' 0 4 = w.extractLsb' 0 4 := BitVec.extractLsb'_extractLsb'_of_le (by omega)
  exact ⟨_, exec_setFlags_of_lowNibble_ne (hnibble ▸ hlow) s, rfl⟩

/-- Settles O4: a word is illegal when it breaks one of the two conditions of `exists_decode_eq_ok_iff`. -/
theorem illegalWordsFailWithIllegalCommand : Obligations.IllegalWordsFailWithIllegalCommand := by
  intro w
  refine ⟨?_, fun hillegal s rest hs => ?_⟩
  · rw [exists_decode_eq_ok_iff, not_and_or, or_comm, not_exists_operandsIn_iff, ← ne_eq, and_zeroMask_ne_zero_iff,
      or_assoc]
    rfl
  · rcases runWord_eq w (s.setInputs rest) with ⟨i, hi, -⟩ | ⟨-, -, hrun⟩
    · exact absurd ⟨i, hi⟩ hillegal
    · exact (step_of_command hs).trans hrun

/-! ### The response of every word (R90, R91) -/

@[simp] theorem commandError_setInputs (s : State) (inputs : List PortInput) (i : Instr) :
    commandError (s.setInputs inputs) i = commandError s i := by cases i <;> rfl

@[simp] theorem resultData_setInputs (s : State) (inputs : List PortInput) (i : Instr) :
    resultData (s.setInputs inputs) i = resultData s i := by cases i <;> rfl

/-- Settles O35: a word raises IllegalCommand, raises its command's error, or succeeds, and each ending writes one
response word. -/
theorem responseOfEveryCommandWord : Obligations.ResponseOfEveryCommandWord := by
  intro s w rest hs
  rw [step_of_command hs]
  rcases runWord_eq w (s.setInputs rest) with ⟨i, hi, hrun⟩ | ⟨why, hwhy, hrun⟩
  · rw [hi]
    rcases exec_cases i (s.setInputs rest) with ⟨e, he, hne, hexec⟩ | ⟨he, rf, mm, hexec, -⟩
    · rw [commandError_setInputs] at he
      refine ⟨_, _, hrun.trans hexec, rfl, rspZero_responseWord _ _, ?_⟩
      simp only [he]
      cases e with
      | illegalCommand => exact absurd rfl hne
      | _ => exact ⟨rspStatus_responseWord _ _, rspData_responseWord _ _⟩
    · rw [commandError_setInputs] at he
      rw [resultData_setInputs] at hexec
      refine ⟨_, _, hrun.trans hexec, rfl, rspZero_responseWord _ _, ?_⟩
      simp only [he]
      exact ⟨rspStatus_responseWord _ _, rspData_responseWord _ _⟩
  · rw [hwhy]
    exact ⟨_, _, hrun, rfl, rspZero_responseWord _ _, rspStatus_responseWord _ _, rspData_responseWord _ _⟩

end Machine

end Sys2Proof
end

section
/-! The register-file commands (40_register_file.md R111 to R117, R121): the whole next state of each one, and its words. -/

namespace Sys2Proof

/-! ### Register fields, by the code they hold (30_encoding.md R84) -/

theorem Reg.ofCode_eq_some_iff_eq_code {c : BitVec 4} {r : Reg} : Reg.ofCode c = some r ↔ c = r.code :=
  Reg.ofCode_eq_some_iff.trans eq_comm

namespace Machine

/-! ### A size-class mismatch (R121) -/

theorem exec_of_commandError {i : Instr} {s : State} {e : CommandError} (h : commandError s i = some e) :
    exec i s = raise e s := by
  rw [exec_eq_stateAfter, raise, stateAfter, h]

/-- Settles O23: in each of the five cases SizeMismatch is the error the command raises. -/
theorem sizeMismatchIsNeverCoerced : Obligations.SizeMismatchIsNeverCoerced := by
  intro i s h
  refine exec_of_commandError (e := .sizeMismatch) ?_
  cases i with
  | readWord | writeWord | readDword | writeDword => exact if_pos h
  | copyRegister => exact if_neg h
  | getFlags | setFlags | readByte | writeByte => exact h.elim

/-! ### READ_WORD and WRITE_WORD (R111, R112) -/

theorem exec_readWord_of_size_one {r : Reg} (h : r.size = 1) (s : State) :
    exec (.readWord r) s = succeed (zext16 (s.rf.readWord r)) s := by
  rw [exec, execReadWord_eq, if_pos h]

/-- Settles O12: the register's size class decides the answer. -/
theorem readWordAnswersTheByte : Obligations.ReadWordAnswersTheByte := fun r =>
  ⟨fun s h => exec_readWord_of_size_one h s,
    fun s h => sizeMismatchIsNeverCoerced (.readWord r) s h,
    fun w => (decode_eq_ok_iff (.readWord r) w).trans (and_congr_right' Reg.ofCode_eq_some_iff_eq_code)⟩

/-- Settles O13: the byte is stored as it is, so F keeps a bad low nibble, on which GET_FLAGS fails. -/
theorem writeWordStoresTheByte : Obligations.WriteWordStoresTheByte := by
  intro r b
  refine ⟨fun s h => exec_writeWord_of_size_one h b s, fun s h => sizeMismatchIsNeverCoerced (.writeWord r b) s h,
    fun hr hlow s => ?_,
    fun w => (decode_eq_ok_iff (.writeWord r b) w).trans
      (and_congr_right' (and_congr_left' Reg.ofCode_eq_some_iff_eq_code))⟩
  subst hr
  have hF : (s.rf.writeWord .f b).slot 0 = b := RegisterFile.slot_writeWord_self s.rf .f b
  refine ⟨_, exec_writeWord_of_size_one rfl b s, hF, fun t' ht' => ?_⟩
  have hbad : (t'.rf.slot 0).extractLsb' 0 4 ≠ 0x0#4 := by rwa [ht'.trans hF]
  exact ⟨_, exec_getFlags_of_lowNibble_ne hbad, rfl, rfl⟩

/-! ### READ_DWORD and WRITE_DWORD (R113, R114) -/

theorem exec_readDword_of_size_two {r : Reg} (h : r.size = 2) (s : State) :
    exec (.readDword r) s = succeed (s.rf.readDword s.config.targetEndian r) s := by
  rw [exec, execReadDword_eq, if_pos h]

/-- Settles O14: TARGET_ENDIAN picks the branch of `combine`. -/
theorem readDwordCombinesThePair : Obligations.ReadDwordCombinesThePair := by
  intro r
  refine ⟨fun s h he => ?_, fun s h he => ?_, fun s h => sizeMismatchIsNeverCoerced (.readDword r) s h,
    fun w => (decode_eq_ok_iff (.readDword r) w).trans (and_congr_right' Reg.ofCode_eq_some_iff_eq_code)⟩
  · rw [exec_readDword_of_size_two h, he]; rfl
  · rw [exec_readDword_of_size_two h, he]; rfl

/-- Settles O15: TARGET_ENDIAN picks the branch of `split`. -/
theorem writeDwordSplitsTheValue : Obligations.WriteDwordSplitsTheValue := by
  intro r v
  refine ⟨fun s h he => ?_, fun s h he => ?_, fun s h => sizeMismatchIsNeverCoerced (.writeDword r v) s h,
    fun w => (decode_eq_ok_iff (.writeDword r v) w).trans
      (and_congr_right' (and_congr_left' Reg.ofCode_eq_some_iff_eq_code))⟩
  · rw [exec_writeDword_of_size_two h, he]; rfl
  · rw [exec_writeDword_of_size_two h, he]; rfl

/-! ### COPY_REGISTER (R115) -/

@[simp] theorem RegisterFile.copyWord_self (rf : RegisterFile) (r : Reg) : rf.copyWord r r = rf :=
  RegisterFile.setSlot_slot rf r.off

@[simp] theorem RegisterFile.copyDword_self (rf : RegisterFile) (r : Reg) : rf.copyDword r r = rf := by
  rw [RegisterFile.copyDword, RegisterFile.setSlot_slot, RegisterFile.setSlot_slot]

/-- The corner case `dst = src` of R115. -/
theorem exec_copyRegister_self (r : Reg) (s : State) : exec (.copyRegister r r) s = succeed 0#16 s := by
  rcases r.size_eq with h | h
  · rw [exec_copyRegister_of_size_one h h, RegisterFile.copyWord_self]; rfl
  · rw [exec_copyRegister_of_size_two h h, RegisterFile.copyDword_self]; rfl

/-- Settles O16: slots are copied by address, so the byte order of the value is kept. -/
theorem copyRegisterCopiesSlotToSlot : Obligations.CopyRegisterCopiesSlotToSlot := by
  intro dst src
  refine ⟨fun s hd hs => exec_copyRegister_of_size_one hd hs s, fun s hd hs => exec_copyRegister_of_size_two hd hs s,
    fun s h => sizeMismatchIsNeverCoerced (.copyRegister dst src) s h, fun s h => ?_, fun s e hd hs => ?_,
    fun w => (decode_eq_ok_iff (.copyRegister dst src) w).trans
      (and_congr_right' (and_congr Reg.ofCode_eq_some_iff_eq_code Reg.ofCode_eq_some_iff_eq_code))⟩
  · subst h
    exact exec_copyRegister_self dst s
  · exact ⟨_, exec_copyRegister_of_size_two hd hs s, RegisterFile.readDword_copyDword e s.rf dst src⟩

/-! ### GET_FLAGS and SET_FLAGS (R116, R117) -/

theorem exec_getFlags_of_lowNibble_eq {s : State} (h : (s.rf.slot 0).extractLsb' 0 4 = 0x0#4) :
    exec .getFlags s = succeed (zext16 (s.rf.slot 0)) s := by
  rw [exec, execGetFlags_eq, if_pos h]

theorem exec_setFlags_of_lowNibble_eq {b : Byte} (h : b.extractLsb' 0 4 = 0x0#4) (s : State) :
    exec (.setFlags b) s = succeed 0#16 (s.setRf (s.rf.setSlot 0 b)) := by
  rw [exec, execSetFlags_eq, if_pos h]

/-- GET_FLAGS has no operand: its row fixes every bit (30_encoding.md R86). -/
theorem decode_eq_getFlags_iff (w : CmdWord) : decode w = .ok .getFlags ↔ w = 0x60000000#32 := by
  have hmask : w &&& 0xFFFFFFFF#32 = w := BitVec.and_allOnes
  calc decode w = .ok .getFlags
    _ ↔ w &&& 0xFFFFFFFF#32 = 0x60000000#32 ∧ True := decode_eq_ok_iff .getFlags w
    _ ↔ w = 0x60000000#32 := by rw [hmask, and_true]

/-- Settles O17: the low nibble of F decides the answer. -/
theorem getFlagsAnswersTheFlagByte : Obligations.GetFlagsAnswersTheFlagByte :=
  ⟨fun _ => exec_getFlags_of_lowNibble_eq, fun _ => exec_getFlags_of_lowNibble_ne, decode_eq_getFlags_iff⟩

/-- Settles O18: the low nibble of the flag byte decides, whatever F held. -/
theorem setFlagsWritesTheWholeOfF : Obligations.SetFlagsWritesTheWholeOfF := fun b =>
  ⟨fun s h => exec_setFlags_of_lowNibble_eq h s, fun s h => exec_setFlags_of_lowNibble_ne h s,
    decode_eq_ok_iff (.setFlags b)⟩

end Machine

end Sys2Proof
end

section
/-! The memory-map commands (41_memory_map.md R150 to R152): the location of every address, and the whole next state of both
commands. -/

namespace Sys2Proof.Machine

/-! ### The location of an address, range by range (R150) -/

/-- The addresses of a segment reach its buffer, each at its distance from the segment's base. -/
theorem locate_of_mem_segment (seg : Segment) {a : Addr} (hbase : segmentBase seg ≤ a.toNat)
    (hend : a.toNat < segmentBase seg + segmentSize seg) :
    locate a = some (.byte seg (a.toNat - segmentBase seg)) := by
  cases seg <;> simp only [segmentBase, segmentSize] at hbase hend ⊢ <;>
    simp (disch := omega) only [locate, if_neg, if_pos, Nat.sub_zero]

theorem locate_of_echo {a : Addr} (hlo : 0xE000 ≤ a.toNat) (hhi : a.toNat ≤ 0xFDFF) :
    locate a = some (.byte .wram (a.toNat - 0xE000)) := by
  simp (disch := omega) only [locate, if_neg, if_pos]

/-- The echo's corner case: an echo address and the internal RAM address 0x2000 below it are one location. -/
theorem locate_sub_of_echo {a : Addr} (hlo : 0xE000 ≤ a.toNat) (hhi : a.toNat ≤ 0xFDFF) :
    locate (a - 0x2000#16) = locate a := by
  have hsub : (a - 0x2000#16).toNat = a.toNat - 0x2000 :=
    BitVec.toNat_sub_of_le (BitVec.le_def.mpr (Nat.le_trans (by decide) hlo))
  calc locate (a - 0x2000#16)
    _ = some (.byte .wram ((a - 0x2000#16).toNat - 0xC000)) :=
      locate_of_mem_segment .wram (by simp only [segmentBase]; omega) (by simp only [segmentBase, segmentSize]; omega)
    _ = some (.byte .wram (a.toNat - 0xE000)) := by rw [hsub, Nat.sub_sub]
    _ = locate a := (locate_of_echo hlo hhi).symm

/-! ### The two accesses (R150) -/

theorem memRead_of_locate_none {a : Addr} (h : locate a = none) (mm : MemoryMap) : memRead mm a = none := by
  rw [memRead, h, Option.map_none]

theorem memWrite_of_locate_none {a : Addr} (h : locate a = none) (mm : MemoryMap) (v : Byte) : memWrite mm a v = none := by
  rw [memWrite, h, Option.map_none]

theorem memWrite_of_locate {a : Addr} {loc : Location} (h : locate a = some loc) (mm : MemoryMap) (v : Byte) :
    memWrite mm a v = some (mm.store loc v) := by
  rw [memWrite, h, Option.map_some]

/-- Settles O25: seven ranges are the segments' own, the echo is WRAM's second range, and the gap is what is left. -/
theorem addressDispatch : Obligations.AddressDispatch := by
  refine ⟨fun a => ⟨fun h => ?_, fun h => ?_, fun lo hi => ?_, fun lo hi => ?_, fun lo hi => ?_, fun lo hi => ?_,
      fun lo hi => ?_, fun lo hi => ?_, locate_of_echo, fun lo hi => (locate_eq_none_iff a).mpr ⟨lo, hi⟩⟩,
    fun a seg k => locate_offset_lt,
    fun mm a h => ⟨memRead_of_locate_none h mm, memWrite_of_locate_none h mm⟩,
    fun mm a h => ⟨memRead_of_locate h mm, memWrite_of_locate h mm⟩,
    fun mm a seg k h => ⟨memRead_of_locate h mm, memWrite_of_locate h mm⟩⟩
  · rw [BitVec.eq_of_toNat_eq (y := 0xFFFF#16) h]
    exact locate_ieAddress
  · exact locate_of_mem_segment .rom (Nat.zero_le _) (Nat.lt_succ_of_le h)
  · exact locate_of_mem_segment .vram lo (Nat.lt_succ_of_le hi)
  · exact locate_of_mem_segment .extram lo (Nat.lt_succ_of_le hi)
  · exact locate_of_mem_segment .wram lo (Nat.lt_succ_of_le hi)
  · exact locate_of_mem_segment .oam lo (Nat.lt_succ_of_le hi)
  · exact locate_of_mem_segment .io lo (Nat.lt_succ_of_le hi)
  · exact locate_of_mem_segment .hram lo (Nat.lt_succ_of_le hi)

/-! ### READ_BYTE and WRITE_BYTE (R151, R152) -/

/-- READ_BYTE sees its address through the dispatch only. -/
theorem exec_readByte_of_locate_eq {a b : Addr} (h : locate a = locate b) (s : State) :
    exec (.readByte a) s = exec (.readByte b) s := by
  simp only [exec, execReadByte_eq, h]

/-- WRITE_BYTE sees its address through the dispatch only. -/
theorem exec_writeByte_of_locate_eq {a b : Addr} (h : locate a = locate b) (v : Byte) (s : State) :
    exec (.writeByte a v) s = exec (.writeByte b v) s := by
  simp only [exec, execWriteByte_eq, h]

/-- Settles O26: outside the gap the address has a location, whose byte is the answer. -/
theorem readByteAnswersTheStoredByte : Obligations.ReadByteAnswersTheStoredByte := by
  intro a
  refine ⟨fun s hgap => ?_, fun s hgap => exec_readByte_of_inGap hgap s,
    fun s hlo hhi => exec_readByte_of_locate_eq (locate_sub_of_echo hlo hhi).symm s, decode_eq_ok_iff (.readByte a)⟩
  obtain ⟨loc, hl⟩ := exists_locate_of_not_inGap hgap
  have hread := memRead_of_locate hl s.mm
  exact ⟨s.mm.load loc, hread, exec_readByte_of_memRead hread⟩

/-- Settles O27: outside the gap the address has a location, and the byte is stored there. -/
theorem writeByteStoresTheByte : Obligations.WriteByteStoresTheByte := by
  intro a b
  refine ⟨fun s hgap => ?_, fun s hgap => exec_writeByte_of_inGap hgap b s,
    fun s hlo hhi => exec_writeByte_of_locate_eq (locate_sub_of_echo hlo hhi).symm b s, decode_eq_ok_iff (.writeByte a b)⟩
  obtain ⟨loc, hl⟩ := exists_locate_of_not_inGap hgap
  exact ⟨s.mm.store loc b, memWrite_of_locate hl s.mm b, exec_writeByte_of_locate hl b s⟩

end Sys2Proof.Machine
end

section
/-! Errors (60_exceptions.md R171 to R176): which command raises which error, and that a command which raises one changes no state of
the CORE. -/

namespace Sys2Proof.Machine

/-! ### The STATUS of a command (30_encoding.md R91) -/

theorem Status.code_injective : Function.Injective Status.code := by
  rintro (_ | ⟨_ | _ | _ | _⟩) (_ | ⟨_ | _ | _ | _⟩) <;> decide

theorem Status.code_error_inj {e e' : CommandError} :
    (Status.error e).code = (Status.error e').code ↔ e = e' :=
  Status.code_injective.eq_iff.trans ⟨Status.error.inj, congrArg Status.error⟩

theorem Status.code_ok_ne_error (e : CommandError) : Status.ok.code ≠ (Status.error e).code :=
  Status.code_injective.ne Status.noConfusion

/-- A command's STATUS is the code of the error that the table of R170 gives it, and OK where that gives none. -/
theorem rspStatus_of_exec {i : Instr} {s t : State} {rsp : RspWord} (h : exec i s = .next t)
    (hrsp : t.response = some rsp) : rspStatus rsp = ((commandError s i).elim Status.ok Status.error).code := by
  obtain rfl : stateAfter s i = t := Host.Outcome.next.inj ((exec_eq_stateAfter i s).symm.trans h)
  obtain rfl := Option.some.inj ((stateAfter_response s i).symm.trans hrsp)
  cases commandError s i with
  | none => exact rspStatus_responseWord .ok _
  | some e => exact rspStatus_responseWord (.error e) _

theorem rspStatus_eq_code_error_iff {i : Instr} {s t : State} {rsp : RspWord} (h : exec i s = .next t)
    (hrsp : t.response = some rsp) (e : CommandError) :
    rspStatus rsp = (Status.error e).code ↔ commandError s i = some e := by
  rw [rspStatus_of_exec h hrsp]
  cases commandError s i with
  | none => exact iff_of_false (Status.code_ok_ne_error e) (Option.some_ne_none e).symm
  | some e' => exact Status.code_error_inj.trans Option.some_inj.symm

/-- Settles O34: STATUS is the error of the command's own rule, and each command has one rule that can raise. The table of R170 gives
that rule as the condition to raise for one group of commands, and as the condition to succeed for the other. -/
theorem eachErrorIsRaisedExactlyWhenItsRuleSays : Obligations.EachErrorIsRaisedExactlyWhenItsRuleSays := by
  intro i s
  have hexec := exec_eq_stateAfter i s
  have hrsp := stateAfter_response s i
  have raised := rspStatus_eq_code_error_iff hexec hrsp
  refine ⟨_, _, hexec, hrsp, (raised .sizeMismatch).trans ?_, (raised .invalidFlagState).trans ?_,
    (raised .unmappedAddress).trans ?_⟩
  all_goals
    cases i with
    | readWord | writeWord | readDword | writeDword | readByte | writeByte =>
      simp only [commandError, Option.ite_none_right_eq_some, Option.some.injEq, reduceCtorEq, and_true, and_false]
    | copyRegister | getFlags | setFlags =>
      simp only [commandError, Option.ite_none_left_eq_some, Option.some.injEq, reduceCtorEq, and_true, and_false, ne_eq]

/-! ### A command that fails changes nothing (R176) -/

/-- What a failing word leaves is its response and the model's record of the error (log 2). -/
theorem runWord_eq_afterError {w : CmdWord} {s t : State} {rsp : RspWord} (h : runWord w s = .next t)
    (hrsp : t.response = some rsp) (hfail : rspStatus rsp ≠ Status.ok.code) : ∃ e, t = s.afterError e := by
  rcases runWord_eq w s with ⟨i, -, hrun⟩ | ⟨-, -, hrun⟩
  · have hexec : exec i s = .next t := hrun.symm.trans h
    rw [rspStatus_of_exec hexec hrsp] at hfail
    cases he : commandError s i with
    | none => exact absurd (by rw [he, Option.elim_none]) hfail
    | some e => exact ⟨e, Host.Outcome.next.inj (hexec.symm.trans (exec_of_commandError he))⟩
  · exact ⟨.illegalCommand, Host.Outcome.next.inj (h.symm.trans hrun)⟩

/-- Settles O36: what an error leaves differs from the state before it in the response and the record only. -/
theorem failingCommandChangesNoState : Obligations.FailingCommandChangesNoState := by
  intro s t w rest rsp hs hstep hrsp hfail
  rw [step_of_command hs] at hstep
  obtain ⟨e, rfl⟩ := runWord_eq_afterError hstep hrsp hfail
  exact ⟨fun _ => rfl, fun _ => rfl, rfl, rfl⟩

end Sys2Proof.Machine
end

section
/-! Reset (70_reset_and_hazards.md R201): which configurations have no instance. -/

namespace Sys2Proof

theorem Segment.exists_iff {p : Segment → Prop} :
    (∃ seg, p seg) ↔ p .rom ∨ p .vram ∨ p .extram ∨ p .wram ∨ p .oam ∨ p .io ∨ p .hram := by
  constructor
  · rintro ⟨seg, h⟩
    cases seg <;> simp only [h, true_or, or_true]
  · rintro (h | h | h | h | h | h | h) <;> exact ⟨_, h⟩

/-- Only a given image can fail to fit: the default contents fit every size. -/
theorem not_imageFits_iff {size : Nat} {image : Option (List Byte)} :
    ¬ imageFits size image = true ↔ ∃ bytes, image = some bytes ∧ bytes.length ≠ size := by
  cases image with
  | none => simp [imageFits]
  | some bytes => simp [imageFits]

namespace Machine

theorem construct_eq_none_iff {c : Config} : construct c = none ↔ ¬ configLegal c = true := by
  cases h : configLegal c <;> simp [construct, h]

/-- What R201 refuses: an image that is given and has not its exact size, of the registers or of a segment. -/
theorem not_configLegal_iff {c : Config} :
    ¬ configLegal c = true ↔
      (∃ bytes, c.initRegs = some bytes ∧ bytes.length ≠ 12) ∨
      ∃ seg bytes, c.image seg = some bytes ∧ bytes.length ≠ segmentSize seg := by
  simp only [configLegal_iff, not_and_or, not_forall, not_imageFits_iff]

/-- Settles O55: the refused configurations, with the segments named one by one. -/
theorem illegalConfigurationIsRefused : Obligations.IllegalConfigurationIsRefused := by
  intro c
  rw [construct_eq_none_iff, not_configLegal_iff, Segment.exists_iff]
  simp only [Config.image, segmentSize]

end Machine

end Sys2Proof
end

section
/-! Encoding and decoding are inverse (30_encoding.md R81 to R87): each command has one word, and each legal word one command. -/

namespace Sys2Proof

/-! ### A row is its opcode (R86) -/

theorem Instr.row_eq_of_opcode (i : Instr) :
    i.row = ⟨zeroMask i.opcode ||| 0xF0000000#32, BitVec.ofNat 32 (i.opcode.toNat * 0x10000000)⟩ := by
  cases i <;> simp [Instr.row, Instr.opcode, zeroMask]

theorem Instr.ctorIdx_eq_of_opcode (i : Instr) : i.ctorIdx = i.opcode.toNat - 1 := by
  cases i <;> rfl

theorem EncodingRow.covers_iff (row : EncodingRow) (w : CmdWord) : row.covers w = true ↔ w &&& row.mask = row.value := by
  simp only [EncodingRow.covers, beq_iff_eq]

theorem opField_of_covers {i : Instr} {w : CmdWord} (h : i.row.covers w = true) : opField w = i.opcode :=
  ((and_row_mask_eq_iff i w).mp ((EncodingRow.covers_iff i.row w).mp h)).1

/-! ### The word of a command spells the command -/

theorem covers_encode (i : Instr) : i.row.covers (encode i) = true := by
  cases i with
  | readWord r => exact (Laws.EncodingRow.readWord r).2
  | writeWord r b => exact (Laws.EncodingRow.writeWord r b).2
  | readDword r => exact (Laws.EncodingRow.readDword r).2
  | writeDword r v => exact (Laws.EncodingRow.writeDword r v).2
  | copyRegister dst src => exact (Laws.EncodingRow.copyRegister dst src).2
  | getFlags => exact Laws.EncodingRow.getFlags.2
  | setFlags b => exact (Laws.EncodingRow.setFlags b).2
  | readByte a => exact (Laws.EncodingRow.readByte a).2
  | writeByte a b => exact (Laws.EncodingRow.writeByte a b).2

theorem operandsIn_encode (i : Instr) : i.operandsIn (encode i) := by
  cases i <;> simp [Instr.operandsIn, encode]

/-- Opcode, zero bits and operands are all the bits of a word: it is the format's word of the fields they fix. -/
theorem encode_eq_of_operandsIn {i : Instr} {w : CmdWord} (hop : opField w = i.opcode)
    (hz : w &&& zeroMask i.opcode = 0#32) (ho : i.operandsIn w) : encode i = w := by
  rw [and_eq_iff_fields] at hz
  cases i with
  | readByte | writeByte =>
    simp [zeroMask, Instr.opcode, Instr.operandsIn, opField, raField, rbField, z4Field, dhField, dlField] at hop hz ho
    rw [← formatM_of_fields w (by simp [z4MField, hz])]
    simp [encode, opField, dataField, hop, hz, ← ho]
  | getFlags =>
    simp [zeroMask, Instr.opcode, opField, raField, rbField, z4Field, dhField, dlField] at hop hz
    rw [← formatR_of_fields w (by simp [z4Field, hz])]
    simp [encode, opField, raField, rbField, dhField, dlField, hop, hz]
  | readWord | writeWord | readDword | writeDword | copyRegister | setFlags =>
    simp [zeroMask, Instr.opcode, Instr.operandsIn, opField, raField, rbField, z4Field, dhField, dlField, imm16Field,
      Reg.ofCode_eq_some_iff] at hop hz ho
    rw [← formatR_of_fields w (by simp [z4Field, hz])]
    simp [encode, opField, raField, rbField, dhField, dlField, hop, hz, ← ho, BitVec.extractLsb'_extractLsb'_of_le]

/-- Settles O1: the word lies in the command's row and its fields hold the command's operands. -/
theorem decodeOfEncodeIsTheCommand : Obligations.DecodeOfEncodeIsTheCommand := fun i =>
  (decode_eq_ok_iff i (encode i)).mpr ⟨(EncodingRow.covers_iff i.row _).mp (covers_encode i), operandsIn_encode i⟩

/-- Settles O2: a legal word has its command's opcode, zero bits and operands, and no other bits. -/
theorem encodeOfDecodedIsTheWord : Obligations.EncodeOfDecodedIsTheWord := by
  intro w i h
  have hop := opField_of_decode h
  obtain ⟨hz, ho⟩ := (decode_eq_ok_iff_of_opField hop).mp h
  exact encode_eq_of_operandsIn hop hz ho

/-- Settles O5: a row fixes the opcode, and the opcode fixes the command and its row. -/
theorem encodingRowsAreDisjoint : Obligations.EncodingRowsAreDisjoint := by
  refine ⟨fun i j w hi hj => ?_, fun w i h => ?_⟩
  · have hop : i.opcode = j.opcode := (opField_of_covers hi).symm.trans (opField_of_covers hj)
    rw [Instr.ctorIdx_eq_of_opcode i, Instr.ctorIdx_eq_of_opcode j, Instr.row_eq_of_opcode i, Instr.row_eq_of_opcode j, hop]
    exact ⟨rfl, rfl⟩
  · exact (EncodingRow.covers_iff i.row w).mpr ((decode_eq_ok_iff i w).mp h).1

/-! ### The register codes and the sample words (R84, R94) -/

/-- Settles O6: the table is the definition's own, and a code is read back by `Reg.ofCode_code`. -/
theorem registerCodesAreTheClosedSet : Obligations.RegisterCodesAreTheClosedSet := by
  refine ⟨by decide, Reg.ofCode_code, by decide, fun r => ?_⟩
  cases r <;> decide

/-- Settles O8: the decoder computes on a written-out word. -/
theorem decodedSampleWords : Obligations.DecodedSampleWords := ⟨rfl, rfl, rfl, rfl, rfl, rfl, rfl, rfl, rfl⟩

namespace Machine

/-- Settles O7: the assembler computes on a written-out line. -/
theorem workedEncodings : Obligations.WorkedEncodings :=
  ⟨rfl, rfl, rfl, rfl, rfl, rfl, rfl, rfl, rfl, rfl, rfl, rfl⟩

end Machine

end Sys2Proof
end

section
/-! The assembler (30_encoding.md R93; 00_scope.md R10): no literal is truncated, and a printed command assembles to its word. -/

namespace Sys2Proof.Machine

/-! ### What the assembler takes -/

/-- The command of a line that is well formed. -/
def commandOf : AsmLine → Instr
  | .readWord r => .readWord r
  | .writeWord r n => .writeWord r (BitVec.ofNat 8 n)
  | .readDword r => .readDword r
  | .writeDword r n => .writeDword r (BitVec.ofNat 16 n)
  | .copyRegister dst src => .copyRegister dst src
  | .getFlags => .getFlags
  | .setFlags operand => .setFlags (flagOperandByte operand)
  | .readByte a => .readByte (BitVec.ofNat 16 a)
  | .writeByte a n => .writeByte (BitVec.ofNat 16 a) (BitVec.ofNat 8 n)

theorem assemble_eq (line : AsmLine) : assemble line = if line.wellFormed then some (commandOf line) else none := by
  unfold assemble
  cases line.wellFormed
  · rfl
  · cases line <;> rfl

theorem assemble_eq_none_iff (line : AsmLine) : assemble line = none ↔ ¬ line.wellFormed = true := by
  simp [assemble_eq]

theorem assemble_eq_some_iff {line : AsmLine} {i : Instr} :
    assemble line = some i ↔ line.wellFormed = true ∧ commandOf line = i := by
  simp [assemble_eq]

theorem not_fitsImm8_iff {n : Nat} : ¬ fitsImm8 n = true ↔ 0xff < n := by
  simp [fitsImm8]

theorem not_fitsImm16_iff {n : Nat} : ¬ fitsImm16 n = true ↔ 0xffff < n := by
  simp [fitsImm16]

theorem toNat_ofNat_of_fitsImm8 {n : Nat} (h : fitsImm8 n = true) : (BitVec.ofNat 8 n).toNat = n :=
  Nat.mod_eq_of_lt (Nat.lt_succ_of_le (of_decide_eq_true h))

theorem toNat_ofNat_of_fitsImm16 {n : Nat} (h : fitsImm16 n = true) : (BitVec.ofNat 16 n).toNat = n :=
  Nat.mod_eq_of_lt (Nat.lt_succ_of_le (of_decide_eq_true h))

/-! ### Flag lists -/

theorem flagListByte_cons (f : Flag) (rest : List Flag) : flagListByte (f :: rest) = flagMask f ||| flagListByte rest := by
  cases f <;> rfl

/-- The set of the flags a list names. -/
def flagsNamed (fs : List Flag) : StatusFlags :=
  ⟨decide (Flag.z ∈ fs), decide (Flag.n ∈ fs), decide (Flag.h ∈ fs), decide (Flag.c ∈ fs)⟩

/-- A flag more in the list is its mask more in the byte, whether it is named already or not. -/
theorem flagListByte_eq_toByte (fs : List Flag) : flagListByte fs = (flagsNamed fs).toByte := by
  induction fs with
  | nil => rfl
  | cons f rest ih =>
    rw [flagListByte_cons, ih]
    simp only [flagsNamed, List.mem_cons, Bool.decide_or]
    generalize decide (Flag.z ∈ rest) = z, decide (Flag.n ∈ rest) = n, decide (Flag.h ∈ rest) = h,
      decide (Flag.c ∈ rest) = c
    cases f <;> revert z n h c <;> decide

/-- Settles O58: a literal that fits is the number its field holds. -/
theorem assemblerNeverTruncates : Obligations.AssemblerNeverTruncates := by
  refine ⟨fun r n => ⟨(assemble_eq_none_iff _).trans not_fitsImm8_iff, fun i hi => ?_⟩,
    fun r n => ⟨(assemble_eq_none_iff _).trans not_fitsImm16_iff, fun i hi => ?_⟩,
    fun n => ⟨(assemble_eq_none_iff _).trans not_fitsImm8_iff, fun i hi => ?_⟩,
    fun fs => ⟨(assemble_eq_none_iff _).trans (not_congr decide_eq_true_iff), fun i hi => ?_⟩,
    fun a => ⟨(assemble_eq_none_iff _).trans not_fitsImm16_iff, fun i hi => ?_⟩, fun a n => ⟨?_, fun i hi => ?_⟩⟩
  · obtain ⟨h, rfl⟩ := assemble_eq_some_iff.mp hi
    simp only [commandOf, encode, dlField_formatR, raField_formatR, toNat_ofNat_of_fitsImm8 h, and_self]
  · obtain ⟨h, rfl⟩ := assemble_eq_some_iff.mp hi
    simp only [commandOf, encode, imm16Field_formatR, raField_formatR, bytes_append, toNat_ofNat_of_fitsImm16 h, and_self]
  · obtain ⟨h, rfl⟩ := assemble_eq_some_iff.mp hi
    simp only [commandOf, encode, dlField_formatR, flagOperandByte, toNat_ofNat_of_fitsImm8 h]
  · obtain ⟨-, rfl⟩ := assemble_eq_some_iff.mp hi
    simp only [commandOf, encode, dlField_formatR, flagOperandByte, flagListByte_eq_toByte, flagsNamed]
  · obtain ⟨h, rfl⟩ := assemble_eq_some_iff.mp hi
    simp only [commandOf, encode, addrField_formatM, toNat_ofNat_of_fitsImm16 h]
  · rw [assemble_eq_none_iff, AsmLine.wellFormed, Bool.and_eq_true, not_and_or, not_fitsImm16_iff, not_fitsImm8_iff]
  · obtain ⟨h, rfl⟩ := assemble_eq_some_iff.mp hi
    obtain ⟨ha, hn⟩ := Bool.and_eq_true_iff.mp h
    simp only [commandOf, encode, addrField_formatM, dataField_formatM, toNat_ofNat_of_fitsImm16 ha,
      toNat_ofNat_of_fitsImm8 hn, and_self]

/-! ### Printed numbers (00_scope.md R10) -/

/-- The number that hexadecimal digits spell, after those read so far. -/
def hexValue (n : Nat) (ds : List Nat) : Nat := ds.foldl (fun n d => n * 16 + d) n

theorem isWordChar_hexDigit {d : Nat} (h : d < 16) : isWordChar (hexDigit d) = true := by
  revert d; decide

theorem digitValue_hexDigit {d : Nat} (h : d < 16) : digitValue (hexDigit d) = some d := by
  revert d; decide

theorem digitsValue_hexDigits {ds : List Nat} (h : ∀ d ∈ ds, d < 16) (n : Nat) :
    digitsValue 16 n (ds.map hexDigit) = some (hexValue n ds) := by
  induction ds generalizing n with
  | nil => rfl
  | cons d rest ih =>
    have hd : d < 16 := h d List.mem_cons_self
    simp only [List.map_cons, digitsValue, digitValue_hexDigit hd, if_pos hd]
    exact ih (fun e he => h e (List.mem_cons_of_mem d he)) _

/-- Dropping leading zeros keeps a digit, and the number. -/
theorem dropLeadingZeros_spec {ds : List Nat} (h : ds ≠ []) :
    dropLeadingZeros ds ≠ [] ∧ dropLeadingZeros ds ⊆ ds ∧ hexValue 0 (dropLeadingZeros ds) = hexValue 0 ds := by
  fun_induction dropLeadingZeros ds with
  | case1 => exact absurd rfl h
  | case2 d => exact ⟨h, List.Subset.refl _, rfl⟩
  | case3 d rest hne hd ih =>
    obtain ⟨hnil, hsub, hvalue⟩ := ih hne
    obtain rfl := of_decide_eq_true hd
    exact ⟨hnil, List.subset_cons_of_subset 0 hsub, hvalue⟩
  | case4 d rest => exact ⟨h, List.Subset.refl _, rfl⟩

/-- The four hexadecimal digits of a 16-bit number. -/
def hexDigitsOf (n : Nat) : List Nat := [n / 4096 % 16, n / 256 % 16, n / 16 % 16, n % 16]

theorem hexDigitsOf_lt (n : Nat) : ∀ d ∈ hexDigitsOf n, d < 16 := by
  simp only [hexDigitsOf, List.forall_mem_cons]
  exact ⟨by omega, by omega, by omega, by omega, nofun⟩

theorem hexValue_hexDigitsOf {n : Nat} (h : n < 65536) : hexValue 0 (hexDigitsOf n) = n := by
  simp only [hexValue, hexDigitsOf, List.foldl_cons, List.foldl_nil]
  omega

/-! ### Printed words are read back as tokens -/

/-- The characters are one word of the lexer, which reads them as the token. -/
structure Spells (word : List Char) (t : Token) : Prop where
  ne_nil : word ≠ []
  wordChars : word.all isWordChar = true
  token : wordToken word = some t

theorem spells_mnemonic (m : Mnemonic) : Spells m.chars (.name m.chars) := by
  cases m <;> exact ⟨List.cons_ne_nil _ _, rfl, rfl⟩

theorem spells_reg (r : Reg) : Spells (regChars r) (.name (regChars r)) := by
  cases r <;> exact ⟨List.cons_ne_nil _ _, rfl, rfl⟩

theorem mnemonicNamed_chars (m : Mnemonic) : mnemonicNamed m.chars = some m := by
  cases m <;> rfl

theorem regNamed_regChars (r : Reg) : regNamed (regChars r) = some r := by
  cases r <;> rfl

theorem spells_hex {n : Nat} (h : n < 65536) : Spells (renderHex n) (.number n) := by
  obtain ⟨hnil, hsub, hvalue⟩ := dropLeadingZeros_spec (ds := hexDigitsOf n) (by simp [hexDigitsOf])
  have hlt : ∀ d ∈ dropLeadingZeros (hexDigitsOf n), d < 16 := fun d hd => hexDigitsOf_lt n d (hsub hd)
  have hliteral := digitsValue_hexDigits hlt 0
  rw [hvalue, hexValue_hexDigitsOf h] at hliteral
  have hrender : renderHex n = '0' :: 'x' :: (dropLeadingZeros (hexDigitsOf n)).map hexDigit := rfl
  rw [hrender]
  refine ⟨List.cons_ne_nil _ _, ?_, ?_⟩
  · have hdigits : ((dropLeadingZeros (hexDigitsOf n)).map hexDigit).all isWordChar = true := by
      simp only [List.all_map, List.all_eq_true, Function.comp_apply]
      exact fun d hd => isWordChar_hexDigit (hlt d hd)
    exact hdigits
  · obtain ⟨d, rest, hd⟩ := List.exists_cons_of_ne_nil hnil
    rw [hd] at hliteral ⊢
    exact congrArg (Option.map Token.number) hliteral

/-! ### Lexing a printed line -/

/-- The lexer collects the characters of a word. -/
theorem lexLine_wordChars {word : List Char} (h : word.all isWordChar = true) (read rest : List Char) :
    lexLine read (word ++ rest) = lexLine (word.reverse ++ read) rest := by
  induction word generalizing read with
  | nil => rfl
  | cons ch word ih =>
    obtain ⟨hch, hword⟩ := Bool.and_eq_true_iff.mp h
    rw [List.cons_append, lexLine, if_pos hch, ih hword, List.reverse_cons, List.append_assoc, List.singleton_append]

theorem endWord_reverse {word : List Char} {t : Token} (h : Spells word t) (after : Option (List Token)) :
    endWord word.reverse after = after.map (t :: ·) := by
  obtain ⟨ch, rest, hrev⟩ := List.exists_cons_of_ne_nil (List.reverse_ne_nil_iff.mpr h.ne_nil)
  have htoken : wordToken (ch :: rest).reverse = some t := by rw [← hrev, List.reverse_reverse, h.token]
  rw [hrev]
  cases after <;> simp only [endWord, htoken] <;> rfl

theorem lexLine_word {word : List Char} {t : Token} (h : Spells word t) (rest : List Char) :
    lexLine [] (word ++ rest) = lexLine word.reverse rest := by
  rw [lexLine_wordChars h.wordChars, List.append_nil]

theorem lexLine_word_end {word : List Char} {t : Token} (h : Spells word t) : lexLine [] word = some [t] := by
  calc lexLine [] word
    _ = lexLine word.reverse [] := by rw [← lexLine_word h, List.append_nil]
    _ = some [t] := endWord_reverse h (some [])

theorem lexLine_word_space {word : List Char} {t : Token} (h : Spells word t) (rest : List Char) :
    lexLine [] (word ++ ' ' :: rest) = (lexLine [] rest).map (t :: ·) := by
  rw [lexLine_word h, ← endWord_reverse h]
  rfl

theorem lexLine_word_comma {word : List Char} {t : Token} (h : Spells word t) (rest : List Char) :
    lexLine [] (word ++ ',' :: rest) = (lexLine [] rest).map fun ts => t :: .comma :: ts := by
  calc lexLine [] (word ++ ',' :: rest)
    _ = endWord word.reverse ((lexLine [] rest).map (Token.comma :: ·)) := lexLine_word h _
    _ = (lexLine [] rest).map fun ts => t :: .comma :: ts := by rw [endWord_reverse h, Option.map_map]; rfl

theorem lexLine_space (rest : List Char) : lexLine [] (' ' :: rest) = lexLine [] rest := rfl

theorem renderOperands_singleton (operand : List Char) : renderOperands [operand] = ' ' :: operand := rfl

theorem renderOperands_cons_cons (a b : List Char) (rest : List (List Char)) :
    renderOperands (a :: b :: rest) = ' ' :: (a ++ ',' :: renderOperands (b :: rest)) := by
  simp [renderOperands]

/-- Printed operands are their tokens, a comma between two of them. -/
theorem lexLine_renderOperands {operands : List (List Char)} {ts : List Token} (h : List.Forall₂ Spells operands ts) :
    lexLine [] (renderOperands operands) = some (ts.intersperse .comma) := by
  induction h with
  | nil => rfl
  | cons hword hrest ih =>
    cases hrest with
    | nil =>
      rw [renderOperands_singleton, lexLine_space, lexLine_word_end hword]
      rfl
    | cons _ _ =>
      rw [renderOperands_cons_cons, lexLine_space, lexLine_word_comma hword, ih]
      rfl

/-- A printed line is its mnemonic's token and its operands'. -/
theorem lexLine_renderedLine {m : List Char} {t : Token} (hm : Spells m t) {operands : List (List Char)} {ts : List Token}
    (h : List.Forall₂ Spells operands ts) :
    lexLine [] (m ++ renderOperands operands) = some (t :: ts.intersperse .comma) := by
  have hoperands := lexLine_renderOperands h
  rcases operands with _ | ⟨a, _ | ⟨b, rest⟩⟩
  · cases h
    rw [renderOperands, List.append_nil, lexLine_word_end hm]
    rfl
  · rw [renderOperands_singleton, lexLine_space] at hoperands
    rw [renderOperands_singleton, lexLine_word_space hm, hoperands, Option.map_some]
  · rw [renderOperands_cons_cons, lexLine_space] at hoperands
    rw [renderOperands_cons_cons, lexLine_word_space hm, hoperands, Option.map_some]

/-! ### A printed command, part by part -/

/-- The mnemonic a command is printed with. -/
def mnemonicOf : Instr → Mnemonic
  | .readWord _ => .readWord
  | .writeWord _ _ => .writeWord
  | .readDword _ => .readDword
  | .writeDword _ _ => .writeDword
  | .copyRegister _ _ => .copyRegister
  | .getFlags => .getFlags
  | .setFlags _ => .setFlags
  | .readByte _ => .readByte
  | .writeByte _ _ => .writeByte

/-- The operands a command is printed with. -/
def printedOperands : Instr → List (List Char)
  | .readWord r | .readDword r => [regChars r]
  | .writeWord r b => [regChars r, renderHex b.toNat]
  | .writeDword r v => [regChars r, renderHex v.toNat]
  | .copyRegister dst src => [regChars dst, regChars src]
  | .getFlags => []
  | .setFlags b => [renderHex b.toNat]
  | .readByte a => [renderHex a.toNat]
  | .writeByte a b => [renderHex a.toNat, renderHex b.toNat]

/-- The tokens of the printed operands. -/
def operandTokens : Instr → List Token
  | .readWord r | .readDword r => [.name (regChars r)]
  | .writeWord r b => [.name (regChars r), .number b.toNat]
  | .writeDword r v => [.name (regChars r), .number v.toNat]
  | .copyRegister dst src => [.name (regChars dst), .name (regChars src)]
  | .getFlags => []
  | .setFlags b => [.number b.toNat]
  | .readByte a => [.number a.toNat]
  | .writeByte a b => [.number a.toNat, .number b.toNat]

/-- The line a printed command parses to. -/
def printedLine : Instr → AsmLine
  | .readWord r => .readWord r
  | .writeWord r b => .writeWord r b.toNat
  | .readDword r => .readDword r
  | .writeDword r v => .writeDword r v.toNat
  | .copyRegister dst src => .copyRegister dst src
  | .getFlags => .getFlags
  | .setFlags b => .setFlags (.imm b.toNat)
  | .readByte a => .readByte a.toNat
  | .writeByte a b => .writeByte a.toNat b.toNat

theorem renderInstr_eq (i : Instr) : renderInstr i = (mnemonicOf i).chars ++ renderOperands (printedOperands i) := by
  cases i <;> rfl

theorem spells_hex_byte (b : Byte) : Spells (renderHex b.toNat) (.number b.toNat) := spells_hex (by omega)

theorem spells_hex_dword (v : Dword) : Spells (renderHex v.toNat) (.number v.toNat) := spells_hex (by omega)

theorem spells_printedOperands (i : Instr) : List.Forall₂ Spells (printedOperands i) (operandTokens i) := by
  cases i with
  | readWord r | readDword r => exact .cons (spells_reg r) .nil
  | writeWord r b => exact .cons (spells_reg r) (.cons (spells_hex_byte b) .nil)
  | writeDword r v => exact .cons (spells_reg r) (.cons (spells_hex_dword v) .nil)
  | copyRegister dst src => exact .cons (spells_reg dst) (.cons (spells_reg src) .nil)
  | getFlags => exact .nil
  | setFlags b => exact .cons (spells_hex_byte b) .nil
  | readByte a => exact .cons (spells_hex_dword a) .nil
  | writeByte a b => exact .cons (spells_hex_dword a) (.cons (spells_hex_byte b) .nil)

theorem parseOperands_operandTokens (i : Instr) :
    parseOperands (mnemonicOf i) ((operandTokens i).intersperse .comma) = some (printedLine i) := by
  cases i <;> simp [mnemonicOf, operandTokens, parseOperands, parseFlagOperand, printedLine, regNamed_regChars]

theorem fitsImm8_toNat (b : Byte) : fitsImm8 b.toNat = true := decide_eq_true (Nat.le_of_lt_succ b.isLt)

theorem fitsImm16_toNat (v : Dword) : fitsImm16 v.toNat = true := decide_eq_true (Nat.le_of_lt_succ v.isLt)

theorem printedLine_wellFormed (i : Instr) : (printedLine i).wellFormed = true := by
  cases i with
  | readWord | readDword | copyRegister | getFlags => rfl
  | writeWord _ b | setFlags b => exact fitsImm8_toNat b
  | writeDword _ v | readByte v => exact fitsImm16_toNat v
  | writeByte a b => exact Bool.and_eq_true_iff.mpr ⟨fitsImm16_toNat a, fitsImm8_toNat b⟩

theorem commandOf_printedLine (i : Instr) : commandOf (printedLine i) = i := by
  cases i <;> simp [printedLine, commandOf, flagOperandByte]

theorem assemble_printedLine (i : Instr) : assemble (printedLine i) = some i :=
  assemble_eq_some_iff.mpr ⟨printedLine_wellFormed i, commandOf_printedLine i⟩

/-- Settles O59: a printed command is lexed to its own tokens, which parse to a line whose literals fit. -/
theorem assemblingPrintedCommandGivesItsWord : Obligations.AssemblingPrintedCommandGivesItsWord := by
  intro i
  have hlex : lexLine [] (renderInstr i) = some (.name (mnemonicOf i).chars :: (operandTokens i).intersperse .comma) := by
    rw [renderInstr_eq]
    exact lexLine_renderedLine (spells_mnemonic _) (spells_printedOperands i)
  have hparse : parseTokens (.name (mnemonicOf i).chars :: (operandTokens i).intersperse .comma) = some (printedLine i) := by
    rw [parseTokens, mnemonicNamed_chars, Option.bind_some, parseOperands_operandTokens]
  simp only [assembleLine, hlex, hparse, assemble_printedLine]

end Sys2Proof.Machine
end

section
/-! The laws of the register-file family (40_register_file.md R118, R119; 20_memory.md R53): what was written reads back, by the
whole register or by its members, and a copy does not depend on TARGET_ENDIAN. -/

namespace Sys2Proof

/-- The members of a pair stand in its two slots (10_state.md R23). -/
theorem Reg.off_of_mem_pairs {p lo hi : Reg}
    (h : (p, lo, hi) ∈ [(Reg.af, Reg.f, Reg.a), (.bc, .c, .b), (.de, .e, .d), (.hl, .l, .h)]) :
    p.size = 2 ∧ lo.size = 1 ∧ hi.size = 1 ∧ lo.off = p.off ∧ hi.off = p.offHigh := by
  have table : ∀ t ∈ [(Reg.af, Reg.f, Reg.a), (.bc, .c, .b), (.de, .e, .d), (.hl, .l, .h)],
      t.1.size = 2 ∧ t.2.1.size = 1 ∧ t.2.2.size = 1 ∧ t.2.1.off = t.1.off ∧ t.2.2.off = t.1.offHigh := by decide
  exact table (p, lo, hi) h

namespace Machine

theorem RegisterFile.slot_off_writeDword (endian : Endian) (rf : RegisterFile) (r : Reg) (v : Dword) :
    (rf.writeDword endian r v).slot r.off = (split endian v).1 := by
  rw [RegisterFile.slot_writeDword, if_neg r.offHigh_ne_off, if_pos rfl]

theorem RegisterFile.slot_offHigh_writeDword (endian : Endian) (rf : RegisterFile) (r : Reg) (v : Dword) :
    (rf.writeDword endian r v).slot r.offHigh = (split endian v).2 := by
  rw [RegisterFile.slot_writeDword, if_pos rfl]

/-- Settles O11: the members read the two bytes that `split` gives to the pair's slots. -/
theorem mixedWidthViewsOfAPair : Obligations.MixedWidthViewsOfAPair := by
  intro p lo hi hmem v s
  obtain ⟨hp, hlo, hhi, hlow, hhigh⟩ := Reg.off_of_mem_pairs hmem
  have hreadLo (endian : Endian) : (s.rf.writeDword endian p v).readWord lo = (split endian v).1 := by
    rw [RegisterFile.readWord, hlow, RegisterFile.slot_off_writeDword]
  have hreadHi (endian : Endian) : (s.rf.writeDword endian p v).readWord hi = (split endian v).2 := by
    rw [RegisterFile.readWord, hhigh, RegisterFile.slot_offHigh_writeDword]
  refine ⟨_, _, _, exec_writeDword_of_size_two hp v s, exec_readWord_of_size_one hlo _,
    exec_readWord_of_size_one hhi _, fun he => ?_, fun he => ?_⟩ <;>
  · simp only [State.setResponse_response, State.setResponse_rf, State.setRf_rf, hreadLo, hreadHi, he]
    exact ⟨rfl, rfl⟩

/-- Settles O21: each read meets the write of its own width in the register it names; a flag set's byte has a zero low nibble. -/
theorem registerRoundTrips : Obligations.RegisterRoundTrips := by
  refine ⟨fun r v s h => ?_, fun r v s h => ?_, fun f s => ?_⟩
  · refine ⟨_, _, exec_writeDword_of_size_two h v s, exec_readDword_of_size_two h _, ?_⟩
    simp only [State.setResponse_response, State.setResponse_rf, State.setResponse_config, State.setRf_rf, State.setRf_config,
      RegisterFile.readDword_writeDword]
  · refine ⟨_, _, exec_writeWord_of_size_one h v s, exec_readWord_of_size_one h _, ?_⟩
    simp only [State.setResponse_response, State.setResponse_rf, State.setRf_rf, RegisterFile.readWord_writeWord]
  · have hF : (s.rf.setSlot 0 f.toByte).slot 0 = f.toByte := RegisterFile.slot_setSlot_self s.rf 0 f.toByte
    have hlow : ((s.rf.setSlot 0 f.toByte).slot 0).extractLsb' 0 4 = 0x0#4 := by rw [hF, StatusFlags.lowNibble_toByte]
    refine ⟨_, _, exec_setFlags_of_lowNibble_eq (StatusFlags.lowNibble_toByte f) s, exec_getFlags_of_lowNibble_eq hlow, ?_,
      hlow⟩
    simp only [State.setResponse_response, State.setResponse_rf, State.setRf_rf, hF]

/-- Settles O22: a copy moves slots, and never asks for their order. -/
theorem copyDoesNotDependOnEndianness : Obligations.CopyDoesNotDependOnEndianness := by
  intro dst src s e hsize
  rcases dst.size_eq with hd | hd
  · have hs : src.size = 1 := hsize ▸ hd
    exact ⟨_, _, exec_copyRegister_of_size_one hd hs _, exec_copyRegister_of_size_one hd hs _, rfl, rfl,
      fun h => by omega⟩
  · have hs : src.size = 2 := hsize ▸ hd
    refine ⟨_, _, exec_copyRegister_of_size_two hd hs _, exec_copyRegister_of_size_two hd hs _, rfl, rfl,
      fun _ => ⟨_, _, exec_readDword_of_size_two hs _, exec_readDword_of_size_two hd _, ?_⟩⟩
    simp only [State.setResponse_response, State.setResponse_rf, State.setResponse_config, State.setRf_rf, State.setRf_config,
      RegisterFile.readDword_copyDword]

end Machine

end Sys2Proof
end

section
/-! Memory (20_memory.md R63, R67; 40_register_file.md R122; 41_memory_map.md R154): the frame of every command, the echo, what
memory holds after a list of commands, and that memory maps which read alike are equal. -/

namespace Sys2Proof.Machine

/-! ### The frame of every command (R122, R154) -/

@[simp] theorem stateAfter_inputs (s : State) (i : Instr) : (stateAfter s i).inputs = s.inputs := by
  unfold stateAfter
  cases commandError s i <;> rfl

theorem stateAfter_of_error {s : State} {i : Instr} {e : CommandError} (h : commandError s i = some e) :
    stateAfter s i = s.afterError e := by
  rw [stateAfter, h]

/-- A command's next state is the one `stateAfter` gives. -/
theorem eq_stateAfter_of_exec {i : Instr} {s t : State} (h : exec i s = .next t) : t = stateAfter s i :=
  Host.Outcome.next.inj (h.symm.trans (exec_eq_stateAfter i s))

theorem mm_exec_of_not_writeByte {i : Instr} {s t : State} (h : exec i s = .next t) (hi : ∀ b v, i ≠ .writeByte b v) :
    t.mm = s.mm := by
  obtain ⟨-, -, hmm | ⟨a, v, -, rfl, -⟩⟩ := exec_frame h
  · exact hmm
  · exact absurd rfl (hi a v)

/-- Settles O24: the frame is `exec_frame`, the error case is `afterError`, which touches neither component. -/
theorem writeFootprintOfEveryCommand : Obligations.WriteFootprintOfEveryCommand := by
  intro i s t h
  obtain ⟨hconfig, hslots, -⟩ := exec_frame h
  refine ⟨hslots, fun a => memRead_exec_frame h, mm_exec_of_not_writeByte h, fun herr => ?_, fun hi => ?_, hconfig, ?_⟩ <;>
    obtain rfl := eq_stateAfter_of_exec h
  · obtain ⟨e, he⟩ := Option.ne_none_iff_exists'.mp herr
    rw [stateAfter_of_error he]
    exact ⟨fun _ => rfl, rfl⟩
  · exact stateAfter_rf_of_memoryMapCommand hi s
  · exact stateAfter_inputs s i

theorem commandError_writeByte_of_locate_none {a : Addr} (h : locate a = none) (v : Byte) (s : State) :
    commandError s (.writeByte a v) = some .unmappedAddress :=
  if_pos ((inGap_iff_locate_eq_none a).mpr h)

/-- Settles O30: WRITE_BYTE's case of the frame of all commands. -/
theorem writeByteFrame : Obligations.WriteByteFrame := by
  intro a v s t h
  obtain ⟨-, hread, -, herror, hrf, hconfig, hinputs⟩ := writeFootprintOfEveryCommand _ s t h
  refine ⟨fun b hb => hread b ?_, fun hgap => ?_, hrf rfl, hconfig, hinputs⟩
  · rintro _ _ ⟨⟩
    exact hb
  · exact (herror (by rw [commandError_writeByte_of_locate_none hgap]; exact Option.some_ne_none _)).2

/-! ### The echo (R63) -/

/-- A write through one address of a location is read through another. -/
theorem exec_readByte_after_writeByte {a b : Addr} {loc : Location} (ha : locate a = some loc) (hb : locate b = some loc)
    (v : Byte) {s : State} (hwf : s.mm.wf = true) :
    ∃ t u, exec (.writeByte a v) s = .next t ∧ exec (.readByte b) t = .next u ∧
      u.response = some (responseWord .ok (zext16 v)) :=
  ⟨_, _, exec_writeByte_of_locate ha v s, exec_readByte_of_memRead (memRead_store_self hb hwf v), rfl⟩

/-- Beyond the echo's end an internal RAM byte has one address only. -/
theorem eq_of_locate_eq_wram {a : Addr} {k : Nat} (h : locate a = some (.byte .wram k)) (hk : 0x1E00 ≤ k) :
    a.toNat = 0xC000 + k := by
  rcases locate_cases a with ⟨-, -, h'⟩ | ⟨-, h'⟩ | ⟨seg, k', h', -, haddr⟩
  · rw [h] at h'; cases h'
  · rw [h] at h'; cases h'
  · rw [h] at h'; cases h'
    rcases haddr with haddr | ⟨-, -, hlt⟩
    · exact haddr
    · omega

/-- Settles O31: the two addresses are one location, and an offset from 0x1E00 on is out of the echo's reach. -/
theorem echoMirrorsInternalRam : Obligations.EchoMirrorsInternalRam := by
  intro a
  refine ⟨fun hlo hhi => ⟨locate_of_echo hlo hhi, locate_sub_of_echo hlo hhi⟩, fun hlo hhi v s hwf => ?_,
    fun hlo hhi b hb => ?_⟩
  · have hecho := locate_of_echo hlo hhi
    have hram := (locate_sub_of_echo hlo hhi).trans hecho
    obtain ⟨t, u, hw, hr, hresp⟩ := exec_readByte_after_writeByte hecho hram v hwf
    obtain ⟨t', u', hw', hr', hresp'⟩ := exec_readByte_after_writeByte hram hecho v hwf
    exact ⟨t, t', u, u', hw, hr, hresp, hw', hr', hresp'⟩
  · have ha : locate a = some (.byte .wram (a.toNat - 0xC000)) :=
      locate_of_mem_segment .wram (by simp only [segmentBase]; omega) (by simp only [segmentBase, segmentSize]; omega)
    have haddr := eq_of_locate_eq_wram (hb.trans ha) (by omega)
    exact BitVec.eq_of_toNat_eq (by omega)

/-! ### Memory after a list of commands (R67) -/

theorem stateAfter_mm_wf {s : State} (hwf : s.mm.wf = true) (i : Instr) : (stateAfter s i).mm.wf = true := by
  obtain ⟨-, -, hmm | ⟨a, v, loc, -, hl, hmm⟩⟩ := exec_frame (exec_eq_stateAfter i s)
  · rwa [hmm]
  · rw [hmm]
    exact MemoryMap.store_wf hwf (locate_valid hl) v

theorem lastWritten_cons (loc : Location) (i : Instr) (rest : List Instr) :
    lastWritten loc (i :: rest) = (lastWritten loc rest).or (lastWritten loc [i]) := by
  cases h : lastWritten loc rest <;> simp only [lastWritten, h] <;> rfl

theorem lastWritten_writeByte (loc : Location) (a : Addr) (b : Byte) :
    lastWritten loc [.writeByte a b] = if locate a = some loc then some b else none := rfl

theorem lastWritten_of_not_writeByte (loc : Location) {i : Instr} (hi : ∀ a b, i ≠ .writeByte a b) :
    lastWritten loc [i] = none := by
  cases i with
  | writeByte a b => exact absurd rfl (hi a b)
  | _ => rfl

/-- One command: a location holds what the command writes to it, or what it held. -/
theorem load_stateAfter {s : State} (hwf : s.mm.wf = true) (i : Instr) (loc : Location) :
    (stateAfter s i).mm.load loc = (lastWritten loc [i]).getD (s.mm.load loc) := by
  by_cases hi : ∃ a b, i = .writeByte a b
  · obtain ⟨a, b, rfl⟩ := hi
    rw [lastWritten_writeByte]
    cases hl : locate a with
    | none =>
      rw [stateAfter_of_error (commandError_writeByte_of_locate_none hl b s), if_neg (Option.some_ne_none loc).symm]
      rfl
    | some loc' =>
      rw [← eq_stateAfter_of_exec (exec_writeByte_of_locate hl b s)]
      by_cases h : loc' = loc
      · rw [if_pos (congrArg some h), h]
        exact MemoryMap.load_store_self hwf loc b
      · rw [if_neg fun e => h (Option.some.inj e)]
        exact MemoryMap.load_store_ne s.mm b (Ne.symm h)
  · have hne : ∀ a b, i ≠ .writeByte a b := fun a b e => hi ⟨a, b, e⟩
    rw [lastWritten_of_not_writeByte loc hne, mm_exec_of_not_writeByte (exec_eq_stateAfter i s) hne, Option.getD_none]

/-- The induction over the list, for a location instead of an address. -/
theorem runCommands_load (cs : List Instr) {s : State} (hwf : s.mm.wf = true) :
    ∃ t, runCommands cs s = .next t ∧ ∀ loc, t.mm.load loc = (lastWritten loc cs).getD (s.mm.load loc) := by
  induction cs generalizing s with
  | nil => exact ⟨s, rfl, fun _ => rfl⟩
  | cons i rest ih =>
    obtain ⟨t, hrun, hload⟩ := ih (stateAfter_mm_wf hwf i)
    refine ⟨t, by rw [runCommands, exec_eq_stateAfter]; exact hrun, fun loc => ?_⟩
    rw [hload, load_stateAfter hwf, lastWritten_cons loc i rest, Option.getD_or]

/-- Settles O33: an address reads its location. -/
theorem memoryReadsTheLastWrite : Obligations.MemoryReadsTheLastWrite := by
  intro cs s hwf
  obtain ⟨t, hrun, hload⟩ := runCommands_load cs hwf
  exact ⟨t, hrun, fun a loc hl => by rw [memRead_of_locate hl, hload]⟩

/-! ### Memory maps that read alike (log 8) -/

theorem Memory.read_above {lo size k : Nat} {m : Memory} (hm : Memory.wfFrom lo size m = true) (h : size ≤ k) :
    Memory.read m k = Memory.unlisted := by
  induction m generalizing lo with
  | nil => rfl
  | cons c rest ih =>
    obtain ⟨j, b⟩ := c
    obtain ⟨-, hj, -, hrest⟩ := Memory.wfFrom_cons.mp hm
    have hne : j ≠ k := by omega
    simp only [Memory.read, hne, decide_false]
    exact ih hrest

theorem MemoryMap.ext_buffer {m n : MemoryMap} (hbuffer : ∀ seg, m.buffer seg = n.buffer seg) (hie : m.ie = n.ie) : m = n := by
  cases m
  cases n
  congr
  · exact hbuffer .rom
  · exact hbuffer .vram
  · exact hbuffer .extram
  · exact hbuffer .wram
  · exact hbuffer .oam
  · exact hbuffer .io
  · exact hbuffer .hram

/-- Every byte of a buffer has an address (10_state.md R36). -/
theorem exists_locate_eq_byte {seg : Segment} {k : Nat} (h : k < segmentSize seg) : ∃ a, locate a = some (.byte seg k) := by
  have hlt : segmentBase seg + k < 2 ^ 16 := by cases seg <;> simp only [segmentBase, segmentSize] at h ⊢ <;> omega
  have haddr : (BitVec.ofNat 16 (segmentBase seg + k)).toNat = segmentBase seg + k := Nat.mod_eq_of_lt hlt
  refine ⟨BitVec.ofNat 16 (segmentBase seg + k), ?_⟩
  rw [locate_of_mem_segment seg (by omega) (by omega), haddr, Nat.add_sub_cancel_left]

theorem load_eq_of_memRead_eq {m n : MemoryMap} {a : Addr} {loc : Location} (hl : locate a = some loc)
    (h : memRead m a = memRead n a) : m.load loc = n.load loc := by
  rw [memRead_of_locate hl, memRead_of_locate hl] at h
  exact Option.some.inj h

/-- Settles O52: inside its size a buffer is read through its segment's addresses, outside it reads as unlisted. -/
theorem equalReadsAreEqualMemories : Obligations.EqualReadsAreEqualMemories := by
  intro m n hm hn h
  refine MemoryMap.ext_buffer (fun seg => ?_) (load_eq_of_memRead_eq locate_ieAddress (h _))
  have hmseg := (MemoryMap.wf_iff m).mp hm seg
  have hnseg := (MemoryMap.wf_iff n).mp hn seg
  refine Memory.ext_read_from hmseg hnseg fun k _ => ?_
  by_cases hk : k < segmentSize seg
  · obtain ⟨a, ha⟩ := exists_locate_eq_byte hk
    exact load_eq_of_memRead_eq ha (h a)
  · rw [Memory.read_above hmseg (by omega), Memory.read_above hnseg (by omega)]

end Sys2Proof.Machine
end

section
/-! The step (60_exceptions.md R174 to R189; 70_reset_and_hazards.md R200 to R206): what each input leaves, what no step changes,
and the invariant that every step keeps. -/

namespace Sys2Proof.Machine

/-! ### What a step does -/

theorem runWord_of_decode {w : CmdWord} {i : Instr} (h : decode w = .ok i) (s : State) : runWord w s = exec i s := by
  rw [runWord, h]

/-- A word leaves what its command leaves, or what the error of an illegal word leaves. -/
theorem runWord_next {w : CmdWord} {s t : State} (h : runWord w s = .next t) :
    (∃ i, decode w = .ok i ∧ t = stateAfter s i) ∨ t = s.afterError .illegalCommand := by
  rcases runWord_eq w s with ⟨i, hi, hrun⟩ | ⟨-, -, hrun⟩
  · exact .inl ⟨i, hi, eq_stateAfter_of_exec (hrun.symm.trans h)⟩
  · exact .inr (Host.Outcome.next.inj (h.symm.trans hrun))

theorem runWord_completes (w : CmdWord) (s : State) : ∃ t, runWord w s = .next t := by
  rcases runWord_eq w s with ⟨i, -, hrun⟩ | ⟨-, -, hrun⟩
  · exact ⟨_, hrun.trans (exec_eq_stateAfter i s)⟩
  · exact ⟨_, hrun⟩

theorem step_of_no_input {s : State} (h : s.inputs = []) : step s = .next (s.setResponse none) := by
  rw [step, takeInput, h]; rfl

theorem applyReset_of_legal {s : State} (h : configLegal s.config = true) (scope : ResetScope) :
    applyReset scope s = .next ((s.reload scope).setResponse none) := by
  rw [applyReset, h]

/-- Nothing but a reset under an illegal configuration keeps a step from completing. -/
theorem step_completes {s : State} (h : configLegal s.config = true) : ∃ t, step s = .next t := by
  rcases hs : s.inputs with _ | ⟨w | scope, rest⟩
  · exact ⟨_, step_of_no_input hs⟩
  · rw [step_of_command hs]
    exact runWord_completes w _
  · rw [step_of_reset hs]
    exact ⟨_, applyReset_of_legal (s := s.setInputs rest) h scope⟩

/-- Settles O46: a word is taken from the port, decoded and run. -/
theorem stepRunsTheDecodedCommand : Obligations.StepRunsTheDecodedCommand := by
  intro s w rest i hs hi
  rw [step_of_command hs, runWord_of_decode hi]
  rfl

theorem decode_tableWord {nbits w : Nat} {i : Instr} (h : decodeTableWord nbits w = some i) :
    decode (tableWord nbits w) = .ok i := by
  simp only [decodeTableWord] at h
  split at h
  · cases hd : decode (tableWord nbits w) with
    | ok j =>
      rw [← tableWord, hd] at h
      exact congrArg Except.ok (Option.some.inj h)
    | error why =>
      rw [← tableWord, hd] at h
      cases h
  · cases h

/-- Settles O47: taking the presented word from the port gives back the state before. -/
theorem presentedTableWordRuns : Obligations.PresentedTableWordRuns := by
  intro s w i h
  exact stepRunsTheDecodedCommand (s.withFetchWord 32 w) (tableWord 32 w) s.inputs i rfl (decode_tableWord h)

/-- Settles O48: an idle step clears the response. -/
theorem stepWithNothingPresentedIdles : Obligations.StepWithNothingPresentedIdles := fun _ => step_of_no_input

/-! ### What no step changes (20_memory.md R54; 10_state.md R28, R29, R32) -/

/-- Settles O43: no command writes the configuration, and a reset reads it only. -/
theorem configurationIsStatic : Obligations.ConfigurationIsStatic := by
  intro s t h
  rcases step_cases h with ⟨-, rfl⟩ | ⟨scope, rest, -, -, rfl⟩ | ⟨w, rest, -, hrun⟩
  · rfl
  · simp
  · rcases runWord_next hrun with ⟨i, -, rfl⟩ | rfl
    · exact stateAfter_config _ i
    · rfl

theorem stateAfter_slot_ne {s : State} {i : Instr} {j : Fin 12} (h : (stateAfter s i).rf.slot j ≠ s.rf.slot j) :
    commandError s i = none ∧ j ∈ writtenSlots i := by
  refine ⟨?_, not_imp_comm.mp ((exec_frame (exec_eq_stateAfter i s)).2.1 j) h⟩
  cases he : commandError s i with
  | none => rfl
  | some e =>
    rw [stateAfter_of_error he] at h
    exact absurd rfl h

/-- A step changes a register byte by a command that raises no error and has the byte in its footprint, or by a reset. -/
theorem step_slot_ne {s t : State} (h : step s = .next t) {j : Fin 12} (hj : t.rf.slot j ≠ s.rf.slot j) :
    (∃ w rest i, s.inputs = .command w :: rest ∧ decode w = .ok i ∧ commandError s i = none ∧ j ∈ writtenSlots i) ∨
      ∃ scope rest, s.inputs = .reset scope :: rest ∧ scope ≠ .memoryMap := by
  rcases step_cases h with ⟨-, rfl⟩ | ⟨scope, rest, hs, -, rfl⟩ | ⟨w, rest, hs, hrun⟩
  · exact absurd rfl hj
  · refine .inr ⟨scope, rest, hs, ?_⟩
    rintro rfl
    exact absurd rfl hj
  · rcases runWord_next hrun with ⟨i, hi, rfl⟩ | rfl
    · obtain ⟨he, hmem⟩ := stateAfter_slot_ne hj
      exact .inl ⟨w, rest, i, hs, hi, by rwa [commandError_setInputs] at he, hmem⟩
    · exact absurd rfl hj

/-- The commands that write a slot without raising SizeMismatch, by the register they name. -/
theorem writer_of_mem_writtenSlots {s : State} {i : Instr} {j : Fin 12} (he : commandError s i = none)
    (hj : j ∈ writtenSlots i) :
    (∃ r b, i = .writeWord r b ∧ r.size = 1 ∧ j ∈ Reg.slots r) ∨
      (∃ r v, i = .writeDword r v ∧ r.size = 2 ∧ j ∈ Reg.slots r) ∨
      (∃ dst src, i = .copyRegister dst src ∧ j ∈ Reg.slots dst) ∨ ∃ b, i = .setFlags b ∧ j = 0 := by
  cases i with
  | writeWord r b =>
    have hsize : r.size ≠ 2 := fun h => Option.some_ne_none _ ((if_pos h).symm.trans he)
    exact .inl ⟨r, b, rfl, Reg.size_ne_two.mp hsize, hj⟩
  | writeDword r v =>
    have hsize : r.size ≠ 1 := fun h => Option.some_ne_none _ ((if_pos h).symm.trans he)
    exact .inr (.inl ⟨r, v, rfl, Reg.size_ne_one.mp hsize, hj⟩)
  | copyRegister dst src => exact .inr (.inr (.inl ⟨dst, src, rfl, hj⟩))
  | setFlags b => exact .inr (.inr (.inr ⟨b, rfl, List.mem_singleton.mp hj⟩))
  | readWord | readDword | getFlags | readByte | writeByte => exact absurd hj List.not_mem_nil

/-- No other register has a slot of PC or of SP (10_state.md R23). -/
theorem Reg.eq_of_mem_slots_of_pc_or_sp {r q : Reg} (hr : r = .pc ∨ r = .sp) {j : Fin 12} (hj : j = r.off ∨ j = r.off + 1)
    (hq : j ∈ Reg.slots q) : q = r := by
  revert hq
  rcases hr with rfl | rfl <;> rcases hj with rfl | rfl <;> cases q <;> decide

/-- Slot 0 is F, which AF contains (10_state.md R23). -/
theorem Reg.eq_f_or_af_of_zero_mem_slots {q : Reg} (hq : (0 : Fin 12) ∈ Reg.slots q) : q = .f ∨ q = .af := by
  revert hq
  cases q <;> decide

theorem Reg.size_of_pc_or_sp {r : Reg} (hr : r = .pc ∨ r = .sp) : r.size = 2 := by
  rcases hr with rfl | rfl <;> rfl

theorem Reg.slot_ne_zero_of_pc_or_sp {r : Reg} (hr : r = .pc ∨ r = .sp) {j : Fin 12} (hj : j = r.off ∨ j = r.off + 1) :
    j ≠ 0 := by
  rcases hr with rfl | rfl <;> rcases hj with rfl | rfl <;> decide

/-- Settles O44: of the writers of a slot only WRITE_DWORD and a copy can name a register that has a slot of PC or SP. -/
theorem pcAndSpChangeOnlyWhenNamed : Obligations.PcAndSpChangeOnlyWhenNamed := by
  intro r s t hr h hchange
  obtain ⟨j, hj, hne⟩ : ∃ j, (j = r.off ∨ j = r.off + 1) ∧ t.rf.slot j ≠ s.rf.slot j := by
    rcases hchange with hne | hne
    · exact ⟨_, .inl rfl, hne⟩
    · exact ⟨_, .inr rfl, hne⟩
  refine (step_slot_ne h hne).imp_left ?_
  rintro ⟨w, rest, i, hs, hi, he, hmem⟩
  refine ⟨w, rest, hs, ?_⟩
  rcases writer_of_mem_writtenSlots he hmem with
    ⟨q, b, rfl, hq, hslots⟩ | ⟨q, v, rfl, -, hslots⟩ | ⟨q, src, rfl, hslots⟩ | ⟨b, rfl, h0⟩
  · obtain rfl := Reg.eq_of_mem_slots_of_pc_or_sp hr hj hslots
    exact absurd (Reg.size_of_pc_or_sp hr) (by omega)
  · obtain rfl := Reg.eq_of_mem_slots_of_pc_or_sp hr hj hslots
    exact .inl ⟨v, hi⟩
  · obtain rfl := Reg.eq_of_mem_slots_of_pc_or_sp hr hj hslots
    exact .inr ⟨src, hi⟩
  · exact absurd h0 (Reg.slot_ne_zero_of_pc_or_sp hr hj)

/-- Settles O45: the writers of slot 0 name F or AF, in the width of the command. -/
theorem flagByteChangesOnlyByItsWriters : Obligations.FlagByteChangesOnlyByItsWriters := by
  intro s t h hne
  refine (step_slot_ne h hne).imp_left ?_
  rintro ⟨w, rest, i, hs, hi, he, hmem⟩
  refine ⟨w, rest, i, hs, hi, ?_⟩
  rcases writer_of_mem_writtenSlots he hmem with
    ⟨q, b, rfl, hq, hslots⟩ | ⟨q, v, rfl, hq, hslots⟩ | ⟨q, src, rfl, hslots⟩ | ⟨b, rfl, -⟩
  · rcases Reg.eq_f_or_af_of_zero_mem_slots hslots with rfl | rfl
    · exact .inr (.inl ⟨b, rfl⟩)
    · cases hq
  · rcases Reg.eq_f_or_af_of_zero_mem_slots hslots with rfl | rfl
    · cases hq
    · exact .inr (.inr (.inl ⟨v, rfl⟩))
  · rcases Reg.eq_f_or_af_of_zero_mem_slots hslots with rfl | rfl
    · exact .inr (.inr (.inr (.inl ⟨src, rfl⟩)))
    · exact .inr (.inr (.inr (.inr ⟨src, rfl⟩)))
  · exact .inl ⟨b, rfl⟩

/-! ### Errors (60_exceptions.md R175 to R177) -/

theorem stateAfter_faults (s : State) (i : Instr) :
    (stateAfter s i).faults = (commandError s i).elim s.faults fun e => e :: s.faults := by
  unfold stateAfter
  cases commandError s i <;> rfl

/-- Settles O39: `exec` is total, and STATUS is the code of the error that the table gives. -/
theorem everyCommandCompletes : Obligations.EveryCommandCompletes := by
  intro i s
  have hexec := exec_eq_stateAfter i s
  have hrsp := stateAfter_response s i
  refine ⟨_, _, hexec, hrsp, ?_⟩
  rw [rspStatus_of_exec hexec hrsp]
  cases commandError s i with
  | none => exact iff_of_true rfl rfl
  | some e => exact iff_of_false (Status.code_ok_ne_error e).symm (Option.some_ne_none e)

/-- What an error leaves: one entry more on record, and that entry's STATUS. -/
theorem afterError_reports (s : State) (e : CommandError) :
    ∃ rsp, (s.afterError e).response = some rsp ∧ rspStatus rsp = (Status.error e).code ∧ rspStatus rsp ≠ 0#3 :=
  have hstatus := rspStatus_responseWord (.error e) 0#16
  ⟨_, rfl, hstatus, hstatus ▸ (Status.code_ok_ne_error e).symm⟩

/-- Settles O38: idling, a reset and a success keep the record and report no error; the other endings are errors. -/
theorem faultRecordIsNeverCleared : Obligations.FaultRecordIsNeverCleared := by
  intro s t h
  rcases step_cases h with ⟨-, rfl⟩ | ⟨scope, rest, -, -, rfl⟩ | ⟨w, rest, -, hrun⟩
  · exact .inl ⟨rfl, fun _ => nofun⟩
  · exact .inl ⟨State.reload_faults _ scope, fun _ => nofun⟩
  · have raised (e : CommandError) (ht : t = (s.setInputs rest).afterError e) :
        ∃ e rsp, t.faults = e :: s.faults ∧ t.response = some rsp ∧ rspStatus rsp = (Status.error e).code ∧
          rspStatus rsp ≠ 0#3 := by
      obtain ⟨rsp, hrsp⟩ := afterError_reports (s.setInputs rest) e
      subst ht
      exact ⟨e, rsp, rfl, hrsp⟩
    rcases runWord_next hrun with ⟨i, -, ht⟩ | ht
    · cases he : commandError (s.setInputs rest) i with
      | some e => exact .inr (raised e (ht.trans (stateAfter_of_error he)))
      | none =>
        subst ht
        refine .inl ⟨by rw [stateAfter_faults, he]; rfl, fun rsp hrsp => ?_⟩
        obtain rfl := Option.some.inj ((stateAfter_response_of_ok he).symm.trans hrsp)
        exact rspStatus_responseWord .ok _
    · exact .inr (raised .illegalCommand ht)

/-- What a command does to the CORE does not depend on the port or on the record. -/
theorem stateAfter_congr {s s' : State} (hconfig : s.config = s'.config) (hrf : s.rf = s'.rf) (hmm : s.mm = s'.mm) (i : Instr) :
    (stateAfter s i).rf = (stateAfter s' i).rf ∧ (stateAfter s i).mm = (stateAfter s' i).mm ∧
      (stateAfter s i).response = (stateAfter s' i).response := by
  have hresults : commandError s i = commandError s' i ∧ resultData s i = resultData s' i ∧ resultRf s i = resultRf s' i ∧
      resultMm s i = resultMm s' i := by
    cases i <;> simp only [commandError, resultData, resultRf, resultMm, hconfig, hrf, hmm, and_self]
  obtain ⟨he, hd, hr, hm⟩ := hresults
  simp only [stateAfter_rf, stateAfter_mm, stateAfter_response, he, hd, hr, hm, hrf, hmm, and_self]

theorem runWord_congr {s s' : State} (hconfig : s.config = s'.config) (hrf : s.rf = s'.rf) (hmm : s.mm = s'.mm)
    (hinputs : s.inputs = s'.inputs) (w : CmdWord) :
    ∃ u u', runWord w s = .next u ∧ runWord w s' = .next u' ∧ u.rf = u'.rf ∧ u.mm = u'.mm ∧ u.response = u'.response ∧
      u.inputs = u'.inputs := by
  rw [runWord, runWord]
  cases decode w with
  | ok i =>
    obtain ⟨hr, hm, hrsp⟩ := stateAfter_congr hconfig hrf hmm i
    exact ⟨_, _, exec_eq_stateAfter i s, exec_eq_stateAfter i s', hr, hm, hrsp, by simpa using hinputs⟩
  | error _ => exact ⟨_, _, rfl, rfl, hrf, hmm, rfl, hinputs⟩

/-- Settles O37: an error leaves a state that differs in the response and the record only, and no command reads those. -/
theorem coreGoesOnAfterAnError : Obligations.CoreGoesOnAfterAnError := by
  intro s t w w' rest rsp hs hstep hrsp hfail
  rw [step_of_command hs] at hstep
  obtain ⟨e, rfl⟩ := runWord_eq_afterError hstep hrsp hfail
  rw [step_of_command (rest := rest) rfl, step_of_command (rest := rest) rfl]
  exact runWord_congr (s := ((s.setInputs (.command w' :: rest)).afterError e).setInputs rest) (s' := s.setInputs rest)
    rfl rfl rfl rfl w'

/-! ### The components commute (70_reset_and_hazards.md R206) -/

/-- Settles O42: each command finds its own component as it would have found it first. -/
theorem componentsCommute : Obligations.ComponentsCommute := by
  intro i j s hi hj
  refine ⟨_, _, _, _, exec_eq_stateAfter i s, exec_eq_stateAfter j _, exec_eq_stateAfter j s, exec_eq_stateAfter i _, ?_⟩
  have hrf : (stateAfter s j).rf = s.rf := stateAfter_rf_of_memoryMapCommand hj s
  have hmm : (stateAfter s i).mm = s.mm := stateAfter_mm_of_registerFileCommand hi s
  obtain ⟨hie, hid, hir⟩ := results_eq_of_registerFileCommand hi hrf (stateAfter_config s j)
  obtain ⟨hje, hjd, hjm⟩ := results_eq_of_memoryMapCommand hj hmm
  refine ⟨?_, ?_, ?_, ?_⟩
  · rw [stateAfter_rf_of_memoryMapCommand hj, stateAfter_rf s i, stateAfter_rf (stateAfter s j), hie, hir, hrf]
  · rw [stateAfter_mm_of_registerFileCommand hi, stateAfter_mm (stateAfter s i), stateAfter_mm s j, hje, hjm, hmm]
  · rw [stateAfter_response, stateAfter_response (stateAfter s j), hie, hid]
  · rw [stateAfter_response, stateAfter_response s, hje, hjd]

/-! ### The invariant -/

theorem responseWf_of_response_none {s : State} (h : s.response = none) : s.responseWf = true := by
  rw [State.responseWf, h]

theorem responseWf_of_response_ok {s : State} {d : Dword} (h : s.response = some (responseWord .ok d)) :
    s.responseWf = true := by
  simp [State.responseWf, h, Status.code]

theorem responseWf_afterError (s : State) (e : CommandError) : (s.afterError e).responseWf = true := by
  simp [State.responseWf, State.afterError]

theorem stateAfter_responseWf (s : State) (i : Instr) : (stateAfter s i).responseWf = true := by
  cases he : commandError s i with
  | some e =>
    rw [stateAfter_of_error he]
    exact responseWf_afterError s e
  | none => exact responseWf_of_response_ok (stateAfter_response_of_ok he)

theorem reload_mm_wf {s : State} (hlegal : configLegal s.config = true) (hwf : s.mm.wf = true) (scope : ResetScope) :
    (s.reload scope).mm.wf = true := by
  cases scope with
  | registerFile => exact hwf
  | memoryMap | both => exact initialMemoryMap_wf hlegal

/-- Settles O49: the configuration is static, WRITE_BYTE and a reset keep the buffers' form, and each ending of a step writes a
well-formed response. -/
theorem stepKeepsTheInvariant : Obligations.StepKeepsTheInvariant := by
  rintro s t ⟨hlegal, hwf, -⟩ h
  refine ⟨by rwa [configurationIsStatic s t h], ?_⟩
  rcases step_cases h with ⟨-, rfl⟩ | ⟨scope, rest, -, -, rfl⟩ | ⟨w, rest, -, hrun⟩
  · exact ⟨hwf, responseWf_of_response_none rfl⟩
  · exact ⟨reload_mm_wf (s := s.setInputs rest) hlegal hwf scope, responseWf_of_response_none rfl⟩
  · rcases runWord_next hrun with ⟨i, -, rfl⟩ | rfl
    · exact ⟨stateAfter_mm_wf (s := s.setInputs rest) hwf i, stateAfter_responseWf _ i⟩
    · exact ⟨hwf, responseWf_afterError _ _⟩

theorem run_succ_of_next {M : Host.Core} {s t : M.State} (h : M.step s = .next t) (n : Nat) :
    M.run (n + 1) s = M.run n t := by
  simp only [Host.Core.run, h]

/-- Settles O51: under the invariant a step completes, and it keeps the invariant. -/
theorem runsNeverStop : Obligations.RunsNeverStop := by
  intro n
  induction n with
  | zero => exact fun s hs => ⟨s, rfl, hs⟩
  | succ n ih =>
    intro s hs
    obtain ⟨t, hstep⟩ := step_completes hs.1
    obtain ⟨u, hrun, hu⟩ := ih t (stepKeepsTheInvariant s t hs hstep)
    exact ⟨u, (run_succ_of_next (M := core) hstep n).trans hrun, hu⟩

end Sys2Proof.Machine
end

section
/-! Reset (10_state.md R42 to R44; 70_reset_and_hazards.md R200 to R203): the invariant after it, the default contents, and a
reset applied again. -/

namespace Sys2Proof.Machine

theorem construct_inv {c : Config} {s : State} (h : construct c = some s) : s.Inv := by
  obtain ⟨hlegal, rfl⟩ := construct_eq_some h
  exact ⟨hlegal, initialMemoryMap_wf hlegal, responseWf_of_response_none rfl⟩

/-- Settles O50: the reset state is the construction of the default configuration. -/
theorem resetMeetsTheInvariant : Obligations.ResetMeetsTheInvariant :=
  ⟨fun _ _ => construct_inv, construct_inv construct_default⟩

theorem load_reset_mm (loc : Location) : State.reset.mm.load loc = 0x00#8 := by
  cases loc with
  | ie => rfl
  | byte seg k => cases seg <;> rfl

theorem slot_reset_rf (i : Fin 12) : State.reset.rf.slot i = 0x00#8 :=
  slot_initialRegisterFile Config.default i

/-- Settles O54: an image that is not given is all zero bytes. -/
theorem defaultResetIsAllZero : Obligations.DefaultResetIsAllZero := by
  refine ⟨construct_default, rfl, slot_reset_rf, fun a hgap => ?_⟩
  obtain ⟨loc, hl⟩ := exists_locate_of_not_inGap hgap
  rw [memRead_of_locate hl, load_reset_mm]

/-- Settles O56: the same contents are loaded from the same configuration. -/
theorem resetAgainReloadsItsComponent : Obligations.ResetAgainReloadsItsComponent := by
  rintro c s₀ s scope rest hc rfl hs
  obtain ⟨hlegal, rfl⟩ := construct_eq_some hc
  refine ⟨_, (step_of_reset hs).trans (applyReset_of_legal (s := s.setInputs rest) hlegal scope), ?_, ?_, ?_, by simp, by simp,
    rfl, by simp⟩ <;>
  · rintro rfl
    exact ⟨rfl, rfl⟩

/-- Settles O57: a configuration that cannot be constructed is not legal, and a reset asks for a legal one. -/
theorem resetWithIllegalConfigurationIsRefused : Obligations.ResetWithIllegalConfigurationIsRefused := by
  intro s scope rest hc hs
  have hillegal : configLegal (s.setInputs rest).config = false := Bool.eq_false_iff.mpr (construct_eq_none_iff.mp hc)
  rw [step_of_reset hs, applyReset, hillegal]

end Sys2Proof.Machine
end
